-- ==== Sys2Proof/Word.lean ====
section
/-! DEFINITION. Words.

The widths the spec names and nothing else. Bit numbering is LSB-0 (00_scope.md R11): `v[hi:lo]` of
the spec is `v.extractLsb' lo (hi - lo + 1)` or, for `lo = 0`, `v.setWidth (hi + 1)`. All values are
unsigned (R12). -/

namespace Sys2Proof

/-- A 32-bit word: CMD, DATA, RESULT and every configuration register (R22, R70). -/
abbrev Word := BitVec 32

/-- An 8-bit unit, or one byte of target memory (R50, R59). -/
abbrev Byte := BitVec 8

/-- One 16-bit RGB565 pixel (R86). -/
abbrev Halfword := BitVec 16

/-- A 64-bit unit: a packed quartet (R87), and the carrier of a unit of either width. -/
abbrev Quad := BitVec 64

/-- A colour packed as `{R[7:0], G[7:0], B[7:0]}` (R14). -/
abbrev Colour := BitVec 24

/-- An ordered sequence of units as the read port delivers them (R16 "RawFrame"). A unit of 8 bits
stands zero-extended. -/
abbrev RawFrame := List Quad

/-- The cells of an output grid in row-major order: `OUT(x, y)` is cell `x + y * W` (R30, R113). -/
abbrev Grid := List Colour

end Sys2Proof
end

