-- ==== Sys2Proof/Syntax.lean ====
section
/-! DEFINITION. The seven commands (30_encoding.md R72), one constructor per row of
spec/opcode_table.json.

IDX stays the 8-bit field the command word carries: which of its values are legal is R74's rule, and
`WellFormed` states it. -/

namespace Sys2Proof

/-- A transaction of the host (R70): the command word and its operand word. -/
structure Transaction where
  cmd : Word
  data : Word
  deriving DecidableEq, Repr

/-- A command with the operands its row of R72 uses. -/
inductive Instr where
  /-- NOP (R181). -/
  | nop
  /-- CFG_WR: the register index and the value (R182). -/
  | cfgWr (idx : BitVec 8) (value : Word)
  /-- CFG_RD: the register index (R184). -/
  | cfgRd (idx : BitVec 8)
  /-- LOCK (R186). -/
  | lock
  /-- TICK (R190). -/
  | tick
  /-- OUT_RD: the column and the scanline (R77, R192). -/
  | outRd (x y : Halfword)
  /-- STAT_RD: the status index (R193). -/
  | statRd (idx : BitVec 8)
  deriving DecidableEq, Repr

end Sys2Proof
end

