-- ==== Sys2Proof/WellFormed.lean ====
section
/-! DEFINITION. Which commands are well-formed: IDX is legal for the operation (30_encoding.md R74).
The other conditions of R72 (OP ≤ 6, RSVD = 0, IDX = 0 where it is unused) hold of every `Instr` by
its type. -/

namespace Sys2Proof

/-- R74: 0..7 for CFG_WR and CFG_RD, 0..1 for STAT_RD. -/
def Instr.wf : Instr → Bool
  | .nop => true
  | .cfgWr idx _ => decide (idx.toNat ≤ 7)
  | .cfgRd idx => decide (idx.toNat ≤ 7)
  | .lock => true
  | .tick => true
  | .outRd _ _ => true
  | .statRd idx => decide (idx.toNat ≤ 1)

end Sys2Proof
end

