-- ==== Sys2Proof/Decode.lean ====
section
/-! DEFINITION. Decoding and encoding of transactions (30_encoding.md R71 to R77).

`decode` is total: every transaction is one of the seven commands or is rejected with the name of
the condition of R72 it breaks. All three names are the spec's one word ILLEGAL. -/

namespace Sys2Proof

/-- Why a command word is ILLEGAL (R72). -/
inductive DecodeError where
  /-- RSVD, bits [31:12], is not zero (R75). -/
  | reservedBits
  /-- OP is 7..15 (R73). -/
  | reservedOp
  /-- IDX is not legal for OP (R74). -/
  | illegalIdx
  deriving DecidableEq, Repr

/-- `OP = CMD[3:0]` (R71). -/
def fieldOp (cmd : Word) : BitVec 4 := cmd.extractLsb' 0 4

/-- `IDX = CMD[11:4]` (R71). -/
def fieldIdx (cmd : Word) : BitVec 8 := cmd.extractLsb' 4 8

/-- `RSVD = CMD[31:12]` (R71). -/
def fieldRsvd (cmd : Word) : BitVec 20 := cmd.extractLsb' 12 20

/-- `IdxLegal(OP, IDX)` (R74). -/
def idxLegal (op : BitVec 4) (idx : BitVec 8) : Bool :=
  match op.toNat with
  | 1 => decide (idx.toNat ≤ 7)
  | 2 => decide (idx.toNat ≤ 7)
  | 6 => decide (idx.toNat ≤ 1)
  | _ => decide (idx = 0)

/-- The command OP selects, with its operands: IDX, or the fields of DATA that R76 and R77 name.
None for a reserved OP (R73). -/
def instrOfOp (op : BitVec 4) (idx : BitVec 8) (data : Word) : Option Instr :=
  match op.toNat with
  | 0 => some .nop
  | 1 => some (.cfgWr idx data)
  | 2 => some (.cfgRd idx)
  | 3 => some .lock
  | 4 => some .tick
  | 5 => some (.outRd (data.extractLsb' 0 16) (data.extractLsb' 16 16))
  | 6 => some (.statRd idx)
  | _ => none

/-- The front end's reading of a transaction (R72, R180): RSVD, then OP, then IDX. -/
def decode (t : Transaction) : Except DecodeError Instr :=
  if fieldRsvd t.cmd ≠ 0 then .error .reservedBits
  else
    match instrOfOp (fieldOp t.cmd) (fieldIdx t.cmd) t.data with
    | none => .error .reservedOp
    | some i => if idxLegal (fieldOp t.cmd) (fieldIdx t.cmd) then .ok i else .error .illegalIdx

/-- OP of a command (R72's table). -/
def opOf : Instr → BitVec 4
  | .nop => 0x0
  | .cfgWr _ _ => 0x1
  | .cfgRd _ => 0x2
  | .lock => 0x3
  | .tick => 0x4
  | .outRd _ _ => 0x5
  | .statRd _ => 0x6

/-- IDX of a command, 0 where R72 says it is unused. -/
def idxOf : Instr → BitVec 8
  | .cfgWr idx _ => idx
  | .cfgRd idx => idx
  | .statRd idx => idx
  | .nop | .lock | .tick | .outRd _ _ => 0

/-- DATA of a command, 0 where R76 says it is ignored (R81). -/
def dataOf : Instr → Word
  | .cfgWr _ value => value
  | .outRd x y => y ++ x
  | .nop | .cfgRd _ | .lock | .tick | .statRd _ => 0

/-- The words of a command: `RSVD = 0`, `IDX << 4`, `OP` (R71), and its DATA (R81). -/
def encode (i : Instr) : Transaction where
  cmd := (0 : BitVec 20) ++ idxOf i ++ opOf i
  data := dataOf i

/-- The transaction whose bits are `w`, CMD in bits 31..0 and DATA in bits 63..32 (log 14). -/
def tableTransaction (nbits w : Nat) : Transaction where
  cmd := BitVec.ofNat 32 (w % 2 ^ nbits)
  data := BitVec.ofNat 32 (w % 2 ^ nbits / 2 ^ 32)

/-- The instruction the decoder reads from a table word; none where it rejects. -/
def decodeTableWord (nbits w : Nat) : Option Instr :=
  (decode (tableTransaction nbits w)).toOption

end Sys2Proof
end

