-- ==== Sys2Proof/Config.lean ====
section
/-! DEFINITION. What an implementation fixes, the shape of the memory read port, and the values the
spec leaves open.

The parameters are those of 00_scope.md R10. The free values are `opaque` constants with no body:
nothing can be proved about the value of one, so a statement about the machine holds whatever it is. -/

namespace Sys2Proof

/-! ### The memory read port (20_memory.md R50 to R61) -/

/-- The two unit widths the block requests (R59). -/
inductive UnitWidth where
  | bits8
  | bits64
  deriving DecidableEq, Repr, Inhabited

/-- `MemPort.read(addr, count, bits)`: the one request a TICK makes (R52, R53, R162). -/
structure ReadRequest where
  addr : Nat
  count : Nat
  width : UnitWidth
  deriving DecidableEq, Repr

/-- Target memory as a byte-level port sees it while the target is halted (R56, R60): the bytes that
are readable, each at its byte address. An address that is not listed is one the port cannot read;
no value is made up for it (log 8). -/
structure Memory where
  cells : List Host.Cell
  deriving DecidableEq, Repr

/-- What the outside world does with one read request (R52, R263). -/
inductive PortAnswer where
  /-- The read does not complete. -/
  | fail
  /-- Some units come back, of any number and any values. The port delivers the low bits of each
  that the requested width asks for (log 7). -/
  | data (units : List Quad)
  /-- The host halts the target around the read (R60, R257, R263), and a byte-level port reads the
  requested region of this one memory (R54, R56). -/
  | halted (mem : Memory)
  deriving DecidableEq, Repr, Inhabited

/-! ### Parameters (00_scope.md R10) -/

/-- `LEGACY_COLLISION`: how overlapping writes combine in legacy row mapping (R107). -/
inductive LegacyCollision where
  | lastWins
  | or
  deriving DecidableEq, Repr

/-- `MAX_PIXELS` must be at least this (R10). -/
def Config.minPixels : Nat := 8192

/-- The parameters of R10 that the model takes as arguments. `MAX_PIXELS` is held as its excess over
the least value R10 allows, so a capacity below it cannot be written down. -/
structure Params where
  /-- `ADDR_BITS`. -/
  addrBits : Nat
  /-- `MAX_PIXELS - 8192`. -/
  extraPixels : Nat
  /-- `LEGACY_COLLISION`. -/
  collision : LegacyCollision
  deriving DecidableEq, Repr

/-- `MAX_PIXELS`, the capacity of the output grid in pixels. -/
def Params.maxPixels (P : Params) : Nat := Config.minPixels + P.extraPixels

/-- `ADDR_BITS` lies in 1..32 (R10). -/
abbrev Params.WellFormed (P : Params) : Prop := 1 ≤ P.addrBits ∧ P.addrBits ≤ 32

namespace Config

/-- `DIM_BITS`, the width of the WIDTH, HEIGHT and FPS fields (R10). -/
def dimBits : Nat := 16

/-- `FG_RESET` (R10, R27). -/
def fgReset : Colour := 0xFFFFFF

/-- `BG_RESET` (R10, R27). -/
def bgReset : Colour := 0x000000

/-! ### Free values -/

/-- `MAX_PIXELS` is OPEN (R10, 93 I10): any excess over 8192 (log 2). -/
opaque extraPixels : Nat

/-- The answer of the read port to the `n`-th read the host had decided nothing about beforehand:
the oracle of R52, under no law (log 5). -/
opaque portDraw (n : Nat) (req : ReadRequest) : PortAnswer

/-- The content of an OUT cell that no TICK has written (R30, 93 I4; log 6). -/
opaque unspecifiedPixel (x y : Nat) : Colour

/-- A unit past the end of a RawFrame. R167 keeps every index of a reachable TICK in range (log 9). -/
opaque absentUnit (i : Nat) : Quad

/-- The number of units a TICK would request for FMT = 3, which R186 keeps out of RUN (log 9). -/
opaque reservedFormatUnits : Nat

/-- The unit width a TICK would request for FMT = 3, which R186 keeps out of RUN (log 9). -/
opaque reservedFormatWidth : UnitWidth

/-- The parameters of this hardware: the values of R10's table, with `MAX_PIXELS` open. -/
def params : Params where
  addrBits := 32
  extraPixels := extraPixels
  collision := .lastWins

end Config

end Sys2Proof
end

