-- ==== Sys2Proof/Machine/State.lean ====
section
/-! DEFINITION. The state of the VSFDC, which is the tuple of 10_state.md R40 as plain data (`Block`),
and the state a step runs on, which is the block and the host at its interface
(70_reset_and_hazards.md R263, R264; log 1). -/

namespace Sys2Proof.Machine

/-- STATE, the lifecycle (R32). Value 3 is never produced and has no constructor (93 I15; log 10). -/
inductive Mode where
  /-- 0: the configuration may be written. -/
  | config
  /-- 1: the configuration is frozen and TICK decodes. -/
  | run
  /-- 2: the configuration was rejected. -/
  | fatal
  deriving DecidableEq, Repr

/-- The error codes (60_exceptions.md R220). Codes 8..15 are never produced and have no constructor
(93 I15; log 10). -/
inductive ErrCode where
  | none
  | frameSizeMismatch
  | unsupportedFormat
  | readFailure
  | cmdIllegal
  | cmdState
  | outRange
  | outEmpty
  deriving DecidableEq, Repr

/-- The eight configuration registers (R22), each a whole 32-bit register. -/
structure CfgRegs where
  width : Word
  height : Word
  format : Word
  base : Word
  fgColor : Word
  bgColor : Word
  fps : Word
  rowmap : Word
  deriving DecidableEq, Repr

/-- What the host does next (R263). -/
inductive HostEvent where
  /-- It issues a transaction (R70). -/
  | command (t : Transaction)
  /-- It applies reset, between two commands (R250). -/
  | reset
  deriving DecidableEq, Repr

/-- The complete state of the VSFDC: the tuple of R40 and nothing else. -/
structure Block where
  /-- The eight configuration registers (R22 to R29). -/
  cfg : CfgRegs
  /-- OUT, row-major: the frame the last successful TICK decoded. A cell that no TICK has written is
  not listed (R30). -/
  out : Grid
  /-- OUT_VALID (R31). -/
  outValid : Bool
  /-- STATE (R32). -/
  mode : Mode
  /-- LAST_ERR (R33). -/
  lastErr : ErrCode
  /-- LOCK_REASON (R34). -/
  lockReason : BitVec 4
  /-- LAST_LEN (R35). -/
  lastLen : Word
  deriving DecidableEq, Repr

/-- The host's side of the interface (R263, R264): the model's own record, no state of the block
(log 1). Every list has the oldest entry first, but for the inputs, whose first entry comes next. -/
structure HostSide where
  /-- What the host will do: commands and resets, the next one first. -/
  events : List HostEvent
  /-- How coming reads will be answered, the next one first. Past its end `Config.portDraw` answers. -/
  answers : List PortAnswer
  /-- How many reads `Config.portDraw` has answered. -/
  draws : Nat
  /-- The read requests the block has issued, oldest first (R53). -/
  requests : List ReadRequest
  /-- The RESULT words the block has answered, oldest first (R70, R264). -/
  results : List Word
  deriving DecidableEq, Repr

/-- What a step runs on: the block, and the host that issues its commands and answers its reads. -/
structure State extends Block where
  /-- The host's side of the interface; it is no state of the block (log 1). -/
  host : HostSide
  deriving DecidableEq, Repr

/-- Why the machine could stop with a fault: it never does, so there is no constructor. Every error
of the spec ends one command, is recorded in LAST_ERR and leaves the block ready (R221, R232, R233). -/
inductive Fault where
  deriving DecidableEq, Repr

/-- Why an instruction could have no meaning. -/
inductive Refusal where
  /-- Raised by an arm of `exec` whose instruction is not modelled. No arm raises it. Safe: the model
  stops. -/
  | notModelled (mnemonic : String)
  deriving DecidableEq, Repr

/-- The configuration registers after reset (R22 to R29, R251, R252). -/
def CfgRegs.reset : CfgRegs where
  width := 128
  height := 64
  format := 0
  base := 0
  fgColor := Config.fgReset.setWidth 32
  bgColor := Config.bgReset.setWidth 32
  fps := 60
  rowmap := 0

/-- A host that has done nothing yet and has decided nothing. -/
def HostSide.idle : HostSide where
  events := []
  answers := []
  draws := 0
  requests := []
  results := []

/-- The block right after reset (R250, R252). OUT lists no cell: its reset content is unspecified
(R30; log 6). -/
def Block.reset : Block where
  cfg := CfgRegs.reset
  out := []
  outValid := false
  mode := .config
  lastErr := .none
  lockReason := 0
  lastLen := 0

/-- The block right after reset, and a host that has done nothing yet. -/
def State.reset : State where
  toBlock := Block.reset
  host := HostSide.idle

end Sys2Proof.Machine
end

