-- ==== Sys2Proof/Machine/Operands.lean ====
section
/-! DEFINITION. The operands of a command: a configuration register or a status word picked by IDX,
and the fields of the configuration registers (10_state.md R22 to R29, R37; 30_encoding.md R74). -/

namespace Sys2Proof.Machine

/-- The configuration registers by name (R22). -/
inductive CfgReg where
  | width
  | height
  | format
  | base
  | fgColor
  | bgColor
  | fps
  | rowmap
  deriving DecidableEq, Repr

/-- The register IDX names (R22); none where IDX is illegal (R74). -/
def cfgRegOfIdx (idx : BitVec 8) : Option CfgReg :=
  match idx.toNat with
  | 0 => some .width
  | 1 => some .height
  | 2 => some .format
  | 3 => some .base
  | 4 => some .fgColor
  | 5 => some .bgColor
  | 6 => some .fps
  | 7 => some .rowmap
  | _ => none

/-- The status words STAT_RD names (R193). -/
inductive StatReg where
  | status
  | lastLen
  deriving DecidableEq, Repr

/-- The status word IDX names (R193); none where IDX is illegal (R74). -/
def statRegOfIdx (idx : BitVec 8) : Option StatReg :=
  match idx.toNat with
  | 0 => some .status
  | 1 => some .lastLen
  | _ => none

/-- How many low bits of a configuration register are defined; the others are reserved (R23 to R29). -/
def fieldWidth (P : Params) : CfgReg → Nat
  | .width => Config.dimBits
  | .height => Config.dimBits
  | .format => 2
  | .base => P.addrBits
  | .fgColor => 24
  | .bgColor => 24
  | .fps => Config.dimBits
  | .rowmap => 1

/-- The defined field of a register value, zero-extended: reserved bits dropped (R37, R182). -/
def fieldOf (P : Params) (r : CfgReg) (v : Word) : Word :=
  (v.setWidth (fieldWidth P r)).setWidth 32

/-- The stored 32 bits of a register. -/
def cfgGet (c : CfgRegs) : CfgReg → Word
  | .width => c.width
  | .height => c.height
  | .format => c.format
  | .base => c.base
  | .fgColor => c.fgColor
  | .bgColor => c.bgColor
  | .fps => c.fps
  | .rowmap => c.rowmap

/-- Replaces the stored 32 bits of a register. -/
def cfgSet (c : CfgRegs) (r : CfgReg) (v : Word) : CfgRegs :=
  match r with
  | .width => { c with width := v }
  | .height => { c with height := v }
  | .format => { c with format := v }
  | .base => { c with base := v }
  | .fgColor => { c with fgColor := v }
  | .bgColor => { c with bgColor := v }
  | .fps => { c with fps := v }
  | .rowmap => { c with rowmap := v }

/-- Reads a register with reserved bits 0 (R37, R184). -/
def cfgRead (P : Params) (c : CfgRegs) (r : CfgReg) : Word := fieldOf P r (cfgGet c r)

/-- Stores the defined field of a value into a register (R37, R182). -/
def cfgWrite (P : Params) (c : CfgRegs) (r : CfgReg) (v : Word) : CfgRegs :=
  cfgSet c r (fieldOf P r v)

/-! ### The fields as the decoder uses them -/

/-- The pixel formats of FMT (R23). -/
inductive Format where
  | mono1bpp
  | rgb565le16
  | rgb565quad64
  | reserved
  deriving DecidableEq, Repr

/-- FMT = FORMAT[1:0] (R23). -/
def fmtOf (c : CfgRegs) : Format :=
  match (c.format.setWidth 2).toNat with
  | 0 => .mono1bpp
  | 1 => .rgb565le16
  | 2 => .rgb565quad64
  | _ => .reserved

/-- W = WIDTH[15:0] (R24). -/
def widthOf (c : CfgRegs) : Nat := (c.width.setWidth Config.dimBits).toNat

/-- H = HEIGHT[15:0] (R25). -/
def heightOf (c : CfgRegs) : Nat := (c.height.setWidth Config.dimBits).toNat

/-- BASE[ADDR_BITS-1:0] (R26). -/
def baseOf (P : Params) (c : CfgRegs) : Nat := (c.base.setWidth P.addrBits).toNat

/-- FG_COLOR[23:0] (R27). -/
def fgOf (c : CfgRegs) : Colour := c.fgColor.setWidth 24

/-- BG_COLOR[23:0] (R27). -/
def bgOf (c : CfgRegs) : Colour := c.bgColor.setWidth 24

/-- FPS[15:0] (R28). -/
def fpsOf (c : CfgRegs) : Nat := (c.fps.setWidth Config.dimBits).toNat

/-- MAP = ROWMAP[0]: true for LEGACY (R29). -/
def legacyRows (c : CfgRegs) : Bool := c.rowmap.getLsbD 0

/-- `pages = H div 8` (R16, R160). -/
def pagesOf (c : CfgRegs) : Nat := heightOf c / 8

end Sys2Proof.Machine
end

