-- ==== Sys2Proof/Machine/Flags.lean ====
section
/-! DEFINITION. The status fields as software sees them. The block has no condition codes; its only
flags are these fields (10_state.md R36, R38). -/

namespace Sys2Proof.Machine

/-- The 2-bit code of STATE (R32). -/
def modeCode : Mode → BitVec 2
  | .config => 0
  | .run => 1
  | .fatal => 2

/-- The 4-bit code of an error (R220). -/
def errCode : ErrCode → BitVec 4
  | .none => 0
  | .frameSizeMismatch => 1
  | .unsupportedFormat => 2
  | .readFailure => 3
  | .cmdIllegal => 4
  | .cmdState => 5
  | .outRange => 6
  | .outEmpty => 7

/-- STATUS: `{20'b0, LOCK_REASON[3:0], LAST_ERR[3:0], 1'b0, OUT_VALID, STATE[1:0]}` (R36, R193). -/
def statusWord (s : State) : Word :=
  (0 : BitVec 20) ++ s.lockReason ++ errCode s.lastErr ++ (0 : BitVec 1) ++ BitVec.ofBool s.outValid
    ++ modeCode s.mode

/-- `min(n, 2^32 - 1)` as a word: LAST_LEN saturates (R35, R190). -/
def saturate32 (n : Nat) : Word := BitVec.ofNat 32 (min n (2 ^ 32 - 1))

end Sys2Proof.Machine
end

