-- ==== Sys2Proof/Machine/Sequencer.lean ====
section
/-! DEFINITION. The framebuffer address sequencer (42_sequencer.md): frame geometry, the read request,
the target address of every pixel, the visit order, and the two checks that use them. Arithmetic is on
unbounded naturals (R12, R169). -/

namespace Sys2Proof.Machine

/-- The unit width of a format (R160). FMT = 3 has none (log 9). -/
def unitWidth : Format → UnitWidth
  | .mono1bpp => .bits8
  | .rgb565le16 => .bits8
  | .rgb565quad64 => .bits64
  | .reserved => Config.reservedFormatWidth

/-- `unitBits` (R160). -/
def unitBits : UnitWidth → Nat
  | .bits8 => 8
  | .bits64 => 64

/-- `unitBytes` (R160). -/
def unitBytes : UnitWidth → Nat
  | .bits8 => 1
  | .bits64 => 8

/-- `ExpectedUnits` (R161). FMT = 3 has no count (log 9). -/
def expectedUnits (c : CfgRegs) : Nat :=
  match fmtOf c with
  | .mono1bpp => widthOf c * pagesOf c
  | .rgb565le16 => 2 * widthOf c * heightOf c
  | .rgb565quad64 => widthOf c / 4 * heightOf c
  | .reserved => Config.reservedFormatUnits

/-- `FrameBytes` (R161). -/
def frameBytes (c : CfgRegs) : Nat := expectedUnits c * unitBytes (unitWidth (fmtOf c))

/-- `ReadRequest(cfg)` (R162). -/
def readRequest (P : Params) (c : CfgRegs) : ReadRequest where
  addr := baseOf P c
  count := expectedUnits c
  width := unitWidth (fmtOf c)

/-- `LengthOK(cfg, n)` (R167). -/
def lengthOK (c : CfgRegs) (n : Nat) : Bool := decide (n = expectedUnits c)

/-- `RangeOK(cfg)` (R168). -/
def rangeOK (P : Params) (c : CfgRegs) : Bool := decide (baseOf P c + frameBytes c ≤ 2 ^ P.addrBits)

/-- `n > MAX_PIXELS` (R186 check 7), compared as an excess over 8192 so that a grid every allowed
`MAX_PIXELS` can hold is accepted without knowing it. -/
def overCapacity (P : Params) (n : Nat) : Bool := decide (P.extraPixels < n - Config.minPixels)

/-! ### Unit and bit of a pixel -/

/-- `PixelToUnit`: the byte index and the bit of a Mono1bpp pixel, corrected geometry (R102). -/
def pixelToUnit (w x y : Nat) : Nat × Nat := (x + y / 8 * w, y % 8)

/-- `UnitToPage`: the page and the column of a byte index (R103). -/
def unitToPage (w i : Nat) : Nat × Nat := (i / w, i % w)

/-- The pixel number of an RGB565_LE16 pixel (R130). -/
def pixelNumber (w x y : Nat) : Nat := x + y * w

/-- The unit and the lane of an RGB565_QUAD64 pixel (R131). -/
def pixelToQuad (w x y : Nat) : Nat × Nat := (x / 4 + y * (w / 4), x % 4)

/-! ### Target addresses -/

/-- The address of unit `i` of a response to a request at `addr` (R54). -/
def unitAddress (addr : Nat) (w : UnitWidth) (i : Nat) : Nat := addr + i * unitBytes w

/-- `MonoAddress`: the byte address and the bit of a Mono1bpp pixel, corrected geometry (R163). -/
def monoAddress (P : Params) (c : CfgRegs) (x y : Nat) : Nat × Nat :=
  let (i, b) := pixelToUnit (widthOf c) x y
  (baseOf P c + i, b)

/-- `RgbAddress`, RGB565_LE16: the addresses of the low and of the high byte (R164). -/
def rgbAddressLE16 (P : Params) (c : CfgRegs) (x y : Nat) : Nat × Nat :=
  let a := baseOf P c + 2 * pixelNumber (widthOf c) x y
  (a, a + 1)

/-- `RgbAddress`, RGB565_QUAD64: the address of the unit, and the lane (R164). -/
def rgbAddressQuad64 (P : Params) (c : CfgRegs) (x y : Nat) : Nat × Nat :=
  let (q, k) := pixelToQuad (widthOf c) x y
  (baseOf P c + 8 * q, k)

/-- Where scanline `y` starts in target memory (R165). For Mono1bpp that is the start of the byte row
whose bit `y mod 8` it is. None for FMT = 3. -/
def scanlineStart (P : Params) (c : CfgRegs) (y : Nat) : Option Nat :=
  match fmtOf c with
  | .mono1bpp => some (baseOf P c + y / 8 * widthOf c)
  | .rgb565le16 => some (baseOf P c + 2 * widthOf c * y)
  | .rgb565quad64 => some (baseOf P c + 8 * (y * (widthOf c / 4)))
  | .reserved => none

/-! ### Visit order (R166) -/

/-- One visit of the Mono1bpp sequencer: page, column, bit. -/
structure Visit where
  p : Nat
  c : Nat
  b : Nat
  deriving DecidableEq, Repr

/-- The visits of a Mono1bpp frame: `p` outer, then `c`, then `b` inner. -/
def monoVisits (w pages : Nat) : List Visit :=
  (List.range pages).flatMap fun p =>
    (List.range w).flatMap fun c =>
      (List.range 8).map fun b => ⟨p, c, b⟩

/-- The pixels of a grid in row-major order: `y` outer, `x` inner. -/
def rasterOrder (w h : Nat) : List (Nat × Nat) :=
  (List.range h).flatMap fun y => (List.range w).map fun x => (x, y)

/-- The grid with `G(x, y) = f x y`, every pixel written once in row-major order. -/
def gridOf (w h : Nat) (f : Nat → Nat → Colour) : Grid :=
  (rasterOrder w h).map fun xy => f xy.1 xy.2

/-- The index of the cell `OUT(x, y)` (R113). -/
def cellIndex (w x y : Nat) : Nat := x + y * w

/-- The unit `u[i]` of a RawFrame. -/
def unitAt (u : RawFrame) (i : Nat) : Quad := u.getD i (Config.absentUnit i)

/-- The unit `u[i]` of a RawFrame of 8-bit units. -/
def byteAt (u : RawFrame) (i : Nat) : Byte := (unitAt u i).setWidth 8

end Sys2Proof.Machine
end

