-- ==== Sys2Proof/Machine/Mono.lean ====
section
/-! DEFINITION. The Mono1bpp decoder (40_mono1bpp.md). -/

namespace Sys2Proof.Machine

/-- `BitX(v, b) = v[b]`: the bit extractor (R101). -/
def bitX (v : Byte) (b : Nat) : Bool := v.getLsbD b

/-- `ScanMapCorrected(p, c, b) = (c, b + 8 * p)` (R104). -/
def scanMapCorrected (v : Visit) : Nat × Nat := (v.c, v.b + 8 * v.p)

/-- `ScanMapLegacy(p, c, b) = (c, b + p * pages)` (R106). -/
def scanMapLegacy (pages : Nat) (v : Visit) : Nat × Nat := (v.c, v.b + v.p * pages)

/-- `ColourOf(s)` (R108). -/
def colourOf (c : CfgRegs) (s : Bool) : Colour := if s then fgOf c else bgOf c

/-- `DecodeMonoCorrected` (R109). -/
def decodeMonoCorrected (c : CfgRegs) (u : RawFrame) : Grid :=
  gridOf (widthOf c) (heightOf c) fun x y =>
    let (i, b) := pixelToUnit (widthOf c) x y
    colourOf c (bitX (byteAt u i) b)

/-- One visit of the legacy painter: a visit off the grid is dropped, any other writes its pixel as
`LEGACY_COLLISION` says (R107 steps 3 and 4). -/
def paintVisit (P : Params) (c : CfgRegs) (u : RawFrame) (g : Grid) (v : Visit) : Grid :=
  let (x, y) := scanMapLegacy (pagesOf c) v
  if y < heightOf c then
    let s := bitX (byteAt u (v.c + v.p * widthOf c)) v.b
    match P.collision with
    | .lastWins => g.set (cellIndex (widthOf c) x y) (colourOf c s)
    | .or => if s then g.set (cellIndex (widthOf c) x y) (fgOf c) else g
  else g

/-- `DecodeMonoLegacy`: painting over a background grid in visit order (R107, R110). -/
def decodeMonoLegacy (P : Params) (c : CfgRegs) (u : RawFrame) : Grid :=
  (monoVisits (widthOf c) (pagesOf c)).foldl (paintVisit P c u)
    (gridOf (widthOf c) (heightOf c) fun _ _ => bgOf c)

end Sys2Proof.Machine
end

