-- ==== Sys2Proof/Machine/Port.lean ====
section
/-! DEFINITION. The memory read port (20_memory.md R50 to R61): how an answer of the outside world
reaches the block as a response, and target memory as a byte-level port reads it. The block has no
write to target memory (R69), so there is no memory write here. -/

namespace Sys2Proof.Machine

/-- A response of the port to the block (R52). -/
inductive PortResponse where
  | fail
  | data (units : RawFrame)
  deriving DecidableEq, Repr

/-! ### Target memory (R50, R54, R56) -/

/-- The addresses of a list of cells rise strictly, from a lower bound on, and lie below an end. -/
def cellsRise (lo hi : Nat) : List Host.Cell → Bool
  | [] => true
  | (a, _) :: rest => decide (lo ≤ a) && decide (a < hi) && cellsRise (a + 1) hi rest

/-- The canonical form of target memory: addresses strictly rising and inside the address space of
`ADDR_BITS` (R50), so that equal memories are equal data. An unlisted address has no value, so no
entry can equal it. -/
def Memory.wf (P : Params) (m : Memory) : Bool := cellsRise 0 (2 ^ P.addrBits) m.cells

/-- The byte listed at an address. -/
def lookupCell (a : Nat) : List Host.Cell → Option Byte
  | [] => none
  | (k, v) :: rest => if k = a then some v else lookupCell a rest

/-- Reads one byte of target memory; none outside the address space (R50) and where the port cannot
read (R58). -/
def memRead (P : Params) (m : Memory) (a : Nat) : Option Byte :=
  if a < 2 ^ P.addrBits then lookupCell a m.cells else none

/-- The `n` bytes from address `a` on, in address order; none if one of them cannot be read. -/
def memReadBytes (P : Params) (m : Memory) (a : Nat) : Nat → Option (List Byte)
  | 0 => some []
  | n + 1 =>
    match memRead P m a, memReadBytes P m (a + 1) n with
    | some b, some bs => some (b :: bs)
    | _, _ => none

/-- A unit from its bytes: byte `m` holds bits [8m+7:8m] (R56). -/
def littleEndian : List Byte → Quad
  | [] => 0
  | b :: bs => b.setWidth 64 ||| littleEndian bs <<< 8

/-- The `n` units from address `a` on: unit `i` is at `a + i * unitBytes` (R54); none if a byte of
them cannot be read. -/
def memReadUnits (P : Params) (m : Memory) (w : UnitWidth) (a : Nat) : Nat → Option RawFrame
  | 0 => some []
  | n + 1 =>
    match memReadBytes P m a (unitBytes w), memReadUnits P m w (a + unitBytes w) n with
    | some bs, some us => some (littleEndian bs :: us)
    | _, _ => none

/-! ### Responses -/

/-- A unit as the port delivers it: an unsigned value of the requested width (R52; log 7). -/
def cutUnit : UnitWidth → Quad → Quad
  | .bits8, u => (u.setWidth 8).setWidth 64
  | .bits64, u => u

/-- The response an answer makes to a request (R52). A byte-level port that cannot read a byte of the
region answers Fail (R58; log 8). -/
def respond (P : Params) (req : ReadRequest) : PortAnswer → PortResponse
  | .fail => .fail
  | .data units => .data (units.map (cutUnit req.width))
  | .halted m =>
    match memReadUnits P m req.width req.addr req.count with
    | some us => .data us
    | none => .fail

/-- The answer to the next read: what the host decided beforehand, or else a free draw (R52; log 5). -/
def nextAnswer (h : HostSide) (req : ReadRequest) : PortAnswer :=
  match h.answers with
  | a :: _ => a
  | [] => Config.portDraw h.draws req

/-- The host's side after one read: the request is on record and the answer is used up (R53). -/
def afterRead (h : HostSide) (req : ReadRequest) : HostSide :=
  { h with
    answers := h.answers.tail
    draws := match h.answers with
      | _ :: _ => h.draws
      | [] => h.draws + 1
    requests := h.requests ++ [req] }

end Sys2Proof.Machine
end

