-- ==== Sys2Proof/Machine/Rgb565.lean ====
section
/-! DEFINITION. The RGB565 decoder (41_rgb565.md). -/

namespace Sys2Proof.Machine

/-- `Unpack16(u, j) = zext_16(u[2j]) | (zext_16(u[2j+1]) << 8)` (R55, R132). -/
def unpack16 (u : RawFrame) (j : Nat) : Halfword :=
  (byteAt u (2 * j)).setWidth 16 ||| (byteAt u (2 * j + 1)).setWidth 16 <<< 8

/-- `UnpackQuad(w, k) = w[16k+15 : 16k]` (R56, R134). -/
def unpackQuad (w : Quad) (k : Nat) : Halfword := w.extractLsb' (16 * k) 16

/-- The three channel fields of an RGB565 pixel (R86). -/
structure Channels where
  r5 : BitVec 5
  g6 : BitVec 6
  b5 : BitVec 5
  deriving DecidableEq, Repr

/-- `Extract565(v) = (v[15:11], v[10:5], v[4:0])` (R136). -/
def extract565 (v : Halfword) : Channels where
  r5 := v.extractLsb' 11 5
  g6 := v.extractLsb' 5 6
  b5 := v.extractLsb' 0 5

/-- A colour triple (R14). -/
structure Rgb where
  r : Byte
  g : Byte
  b : Byte
  deriving DecidableEq, Repr

/-- `Expand(r5, g6, b5) = (r5 << 3, g6 << 2, b5 << 3)`: no replication, no rounding (R137). -/
def expand (c : Channels) : Rgb where
  r := c.r5.setWidth 8 <<< 3
  g := c.g6.setWidth 8 <<< 2
  b := c.b5.setWidth 8 <<< 3

/-- `{R, G, B}` (R14). -/
def packRgb (c : Rgb) : Colour := c.r ++ c.g ++ c.b

/-- `Rgb565ToColour` (R138). -/
def rgb565ToColour (v : Halfword) : Colour := packRgb (expand (extract565 v))

/-- `DecodeLE16` (R139). -/
def decodeLE16 (c : CfgRegs) (u : RawFrame) : Grid :=
  gridOf (widthOf c) (heightOf c) fun x y =>
    rgb565ToColour (unpack16 u (pixelNumber (widthOf c) x y))

/-- `DecodeQuad` (R140). -/
def decodeQuad (c : CfgRegs) (u : RawFrame) : Grid :=
  gridOf (widthOf c) (heightOf c) fun x y =>
    let (q, k) := pixelToQuad (widthOf c) x y
    rgb565ToColour (unpackQuad (unitAt u q) k)

end Sys2Proof.Machine
end

