-- ==== Sys2Proof/Machine/Ops.lean ====
section
/-! DEFINITION. The operations the commands share: how a command ends, the STATE check, LOCK's checks,
the decoder a TICK selects, and the reading of OUT.

Recording an error is all there is to taking an exception on this block (60_exceptions.md R232):
`failCmd` is that one operation. There is no return from it (R233). -/

namespace Sys2Proof.Machine

/-! ### How a command ends -/

/-- `RESULT <- v` (R13, R70): the response word goes to the host. -/
def answer (v : Word) (s : State) : State :=
  { s with host := { s.host with results := s.host.results ++ [v] } }

/-- `LAST_ERR <- NONE; RESULT <- v`: a command that succeeds (R33, R78). -/
def okCmd (v : Word) (s : State) : State := answer v { s with lastErr := .none }

/-- `fail E`: `LAST_ERR <- E; RESULT <- 0`, and nothing more (R221, R222). -/
def failCmd (e : ErrCode) (s : State) : State := answer 0 { s with lastErr := e }

/-- The STATE check of the front end: a command not allowed in the current STATE fails CMD_STATE
(R180, R227). -/
def inMode (m : Mode) (s : State) (k : State) : State :=
  if s.mode = m then k else failCmd .cmdState s

/-! ### Host events -/

/-- The first pending event of the host is taken. -/
def popEvent (s : State) : State :=
  { s with host := { s.host with events := s.host.events.tail } }

/-- The host puts an event before all the others it has pending. -/
def pushEvent (e : HostEvent) (s : State) : State :=
  { s with host := { s.host with events := e :: s.host.events } }

/-- Reset: every state element of R40, and nothing else, takes its reset value (R250, R252). The host's
side is no state of the block and stays (log 12). -/
def applyReset (s : State) : State := { s with toBlock := Block.reset }

/-- The next event, if there is one; none while the block is idle (R240, R253). -/
def nextEvent (s : State) : Option HostEvent := s.host.events.head?

/-! ### LOCK (43_commands.md R186) -/

/-- The number of the first validation check that fails, or 0. -/
def firstFailingCheck (P : Params) (c : CfgRegs) : BitVec 4 :=
  if widthOf c = 0 then 1
  else if heightOf c = 0 then 2
  else if fmtOf c = .reserved then 3
  else if fmtOf c = .mono1bpp ∧ heightOf c % 8 ≠ 0 then 4
  else if fmtOf c = .rgb565quad64 ∧ widthOf c % 4 ≠ 0 then 5
  else if fpsOf c = 0 then 6
  else if overCapacity P (widthOf c * heightOf c) then 7
  else if ¬ rangeOK P c then 8
  else 0

/-- LOCK_REASON and STATE as a LOCK in CONFIG writes them, and how it then ends. -/
def lockCfg (P : Params) (s : State) : State :=
  let reason := firstFailingCheck P s.cfg
  if reason = 0 then okCmd 0 { s with lockReason := reason, mode := .run }
  else failCmd .unsupportedFormat { s with lockReason := reason, mode := .fatal }

/-! ### TICK (43_commands.md R188, R190) -/

/-- `DecodeFrame` (R188). FMT = 3 cannot occur in RUN; it decodes to no pixel (log 9). -/
def decodeFrame (P : Params) (c : CfgRegs) (u : RawFrame) : Grid :=
  match fmtOf c with
  | .mono1bpp => if legacyRows c then decodeMonoLegacy P c u else decodeMonoCorrected c u
  | .rgb565le16 => decodeLE16 c u
  | .rgb565quad64 => decodeQuad c u
  | .reserved => []

/-- What a TICK does with the port's response (R190). -/
def takeResponse (P : Params) (resp : PortResponse) (s : State) : State :=
  match resp with
  | .fail => failCmd .readFailure { s with lastLen := 0 }
  | .data us =>
    let s := { s with lastLen := saturate32 us.length }
    if lengthOK s.cfg us.length then
      okCmd 0 { s with out := decodeFrame P s.cfg us, outValid := true }
    else failCmd .frameSizeMismatch s

/-- One read request, then its response (R53, R190). -/
def fetchFrame (P : Params) (s : State) : State :=
  let req := readRequest P s.cfg
  takeResponse P (respond P req (nextAnswer s.host req)) { s with host := afterRead s.host req }

/-! ### OUT (10_state.md R30, 43_commands.md R192) -/

/-- `OUT(x, y)`. A cell that no TICK has written has an unspecified value (log 6). -/
def pixelAt (s : State) (x y : Nat) : Colour :=
  s.out.getD (cellIndex (widthOf s.cfg) x y) (Config.unspecifiedPixel x y)

/-- Scanline `y` of the grid, left to right (40_mono1bpp.md R113). -/
def scanline (s : State) (y : Nat) : List Colour :=
  (List.range (widthOf s.cfg)).map fun x => pixelAt s x y

/-- What OUT_RD does with a coordinate (R192): OUT_EMPTY before OUT_RANGE (R230). -/
def readPixel (x y : Nat) (s : State) : State :=
  if s.outValid = false then failCmd .outEmpty s
  else if widthOf s.cfg ≤ x ∨ heightOf s.cfg ≤ y then failCmd .outRange s
  else okCmd ((pixelAt s x y).setWidth 32) s

/-! ### Status words (43_commands.md R193) -/

/-- The value of a status word. -/
def statRead (s : State) : StatReg → Word
  | .status => statusWord s
  | .lastLen => s.lastLen

end Sys2Proof.Machine
end

