-- ==== Sys2Proof/Machine/Commands.lean ====
section
/-! DEFINITION. The meaning of each command (43_commands.md). A command whose IDX is illegal fails
CMD_ILLEGAL before its STATE is looked at (R180, R230). -/

namespace Sys2Proof.Machine

/-- NOP (R181). -/
def execNop (s : State) : Host.Outcome State Fault Refusal := .next (okCmd 0 s)

/-- CFG_WR (R182). -/
def execCfgWr (idx : BitVec 8) (value : Word) (s : State) : Host.Outcome State Fault Refusal :=
  match cfgRegOfIdx idx with
  | none => .next (failCmd .cmdIllegal s)
  | some r =>
    .next (inMode .config s (okCmd 0 { s with cfg := cfgWrite Config.params s.cfg r value }))

/-- CFG_RD (R184). -/
def execCfgRd (idx : BitVec 8) (s : State) : Host.Outcome State Fault Refusal :=
  match cfgRegOfIdx idx with
  | none => .next (failCmd .cmdIllegal s)
  | some r => .next (okCmd (cfgRead Config.params s.cfg r) s)

/-- LOCK (R186). -/
def execLock (s : State) : Host.Outcome State Fault Refusal :=
  .next (inMode .config s (lockCfg Config.params s))

/-- TICK (R190). -/
def execTick (s : State) : Host.Outcome State Fault Refusal :=
  .next (inMode .run s (fetchFrame Config.params s))

/-- OUT_RD (R192). -/
def execOutRd (x y : Halfword) (s : State) : Host.Outcome State Fault Refusal :=
  .next (readPixel x.toNat y.toNat s)

/-- STAT_RD (R193): a success leaves LAST_ERR as it is. -/
def execStatRd (idx : BitVec 8) (s : State) : Host.Outcome State Fault Refusal :=
  match statRegOfIdx idx with
  | none => .next (failCmd .cmdIllegal s)
  | some r => .next (answer (statRead s r) s)

end Sys2Proof.Machine
end

