-- ==== Sys2Proof/Machine/Dispatch.lean ====
section
/-! DEFINITION. One arm per command of 30_encoding.md R72. -/

namespace Sys2Proof.Machine

def exec (i : Instr) (s : State) : Host.Outcome State Fault Refusal :=
  match i with
  | .nop => Sys2Proof.Machine.execNop s
  | .cfgWr idx value => Sys2Proof.Machine.execCfgWr idx value s
  | .cfgRd idx => Sys2Proof.Machine.execCfgRd idx s
  | .lock => Sys2Proof.Machine.execLock s
  | .tick => Sys2Proof.Machine.execTick s
  | .outRd x y => Sys2Proof.Machine.execOutRd x y s
  | .statRd idx => Sys2Proof.Machine.execStatRd idx s

end Sys2Proof.Machine
end

