-- ==== Sys2Proof/Machine/Step.lean ====
section
/-! DEFINITION. One step: the block takes the host's next event (70_reset_and_hazards.md R263). -/

namespace Sys2Proof.Machine

/-- One step. With no event pending the block is idle and all its state is held (R240, R253; log 11).
A reset sets the state of R252 (R250). A transaction is decoded by the front end: a word that is not
well-formed fails CMD_ILLEGAL, any other runs its command (R180). -/
def step (s : State) : Host.Outcome State Fault Refusal :=
  match nextEvent s with
  | none => .next s
  | some .reset => .next (applyReset (popEvent s))
  | some (.command t) =>
    match decode t with
    | .ok i => exec i (popEvent s)
    | .error _ => .next (failCmd .cmdIllegal (popEvent s))

/-- The state in which the host issues the table word `w` next (log 14). -/
def State.withFetchWord (s : State) (nbits w : Nat) : State :=
  pushEvent (.command (tableTransaction nbits w)) s

end Sys2Proof.Machine
end

