-- ==== Sys2Proof/Machine/Assembler.lean ====
section
/-! DEFINITION. The assembler syntax and the pseudo-instructions (30_encoding.md R81, R82). A line is a
list of characters. The spec gives the names, the operand forms and the encodings; what it leaves open
of the text (blanks, letter case, numbers too large for their field) is log 13. -/

namespace Sys2Proof.Machine

/-! ### Pseudo-instructions (R82) -/

/-- The expansion of `CONFIGURE w, h, fmt, base`. -/
def configureCmds (w h fmt base : Word) : List Instr :=
  [.cfgWr 0 w, .cfgWr 1 h, .cfgWr 2 fmt, .cfgWr 3 base, .lock]

/-- The expansion of `FRAME`. -/
def frameCmds : List Instr := [.tick, .statRd 0]

/-- The expansion of `READ_PIXEL x, y`. -/
def readPixelCmds (x y : Halfword) : List Instr := [.outRd x y]

/-! ### Characters and numbers -/

/-- A character between the parts of a line. -/
def isBlank (c : Char) : Bool := c == ' ' || c == '\t'

/-- The line up to its comment. -/
def stripComment (cs : List Char) : List Char := cs.takeWhile (· != ';')

/-- A text without the blanks around it. -/
def trimBlanks (cs : List Char) : List Char :=
  ((cs.dropWhile isBlank).reverse.dropWhile isBlank).reverse

/-- The texts between the commas of a text. -/
def splitCommas : List Char → List (List Char)
  | [] => [[]]
  | c :: cs =>
    if c = ',' then [] :: splitCommas cs
    else
      match splitCommas cs with
      | [] => [[c]]
      | t :: ts => (c :: t) :: ts

/-- The operands after a mnemonic; none of them where only blanks follow. -/
def operandsOf (cs : List Char) : List (List Char) :=
  if trimBlanks cs = [] then [] else (splitCommas cs).map trimBlanks

/-- The value of a digit, hexadecimal ones included. -/
def digitValue (c : Char) : Option Nat :=
  if '0' ≤ c ∧ c ≤ '9' then some (c.toNat - 48)
  else if 'A' ≤ c ∧ c ≤ 'F' then some (c.toNat - 55)
  else if 'a' ≤ c ∧ c ≤ 'f' then some (c.toNat - 87)
  else none

/-- The number a list of digits writes in a base, from the digits read so far. -/
def digitsValue (base acc : Nat) : List Char → Option Nat
  | [] => some acc
  | c :: cs =>
    match digitValue c with
    | some d => if d < base then digitsValue base (acc * base + d) cs else none
    | none => none

/-- A number: decimal, or hexadecimal with `0x`. -/
def numberOf : List Char → Option Nat
  | [] => none
  | ['0', 'x'] => none
  | '0' :: 'x' :: ds => digitsValue 16 0 ds
  | ds => digitsValue 10 0 ds

/-- A number of at most `n` bits. -/
def fieldNumber (n : Nat) (cs : List Char) : Option (BitVec n) :=
  match numberOf cs with
  | some v => if v < 2 ^ n then some (BitVec.ofNat n v) else none
  | none => none

/-- What a name of a table stands for. -/
def nameValue (table : List (List Char × Nat)) (cs : List Char) : Option Nat :=
  (table.find? fun e => e.1 == cs).map (·.2)

/-! ### Names -/

/-- The configuration registers (R22, R81). -/
def regNames : List (List Char × Nat) :=
  [(['W', 'I', 'D', 'T', 'H'], 0),
   (['H', 'E', 'I', 'G', 'H', 'T'], 1),
   (['F', 'O', 'R', 'M', 'A', 'T'], 2),
   (['B', 'A', 'S', 'E'], 3),
   (['F', 'G', '_', 'C', 'O', 'L', 'O', 'R'], 4),
   (['B', 'G', '_', 'C', 'O', 'L', 'O', 'R'], 5),
   (['F', 'P', 'S'], 6),
   (['R', 'O', 'W', 'M', 'A', 'P'], 7)]

/-- The status words (R81, R193). -/
def statNames : List (List Char × Nat) :=
  [(['S', 'T', 'A', 'T', 'U', 'S'], 0),
   (['L', 'A', 'S', 'T', '_', 'L', 'E', 'N'], 1)]

/-- The values FORMAT accepts by name (R23, R81). -/
def formatNames : List (List Char × Nat) :=
  [(['M', 'O', 'N', 'O', '1', 'B', 'P', 'P'], 0),
   (['R', 'G', 'B', '5', '6', '5', '_', 'L', 'E', '1', '6'], 1),
   (['R', 'G', 'B', '5', '6', '5', '_', 'Q', 'U', 'A', 'D', '6', '4'], 2)]

/-- The values ROWMAP accepts by name (R29, R81). -/
def rowmapNames : List (List Char × Nat) :=
  [(['C', 'O', 'R', 'R', 'E', 'C', 'T', 'E', 'D'], 0),
   (['L', 'E', 'G', 'A', 'C', 'Y'], 1)]

/-- An index: a name of the table, or a number the table has. -/
def indexOperand (table : List (List Char × Nat)) (cs : List Char) : Option (BitVec 8) :=
  match nameValue table cs with
  | some v => some (BitVec.ofNat 8 v)
  | none =>
    match numberOf cs with
    | some v => if v < table.length then some (BitVec.ofNat 8 v) else none
    | none => none

/-- The names a register accepts for its value. -/
def valueNames (idx : BitVec 8) : List (List Char × Nat) :=
  match idx.toNat with
  | 2 => formatNames
  | 7 => rowmapNames
  | _ => []

/-- The value of a CFG_WR of a register. -/
def valueOperand (idx : BitVec 8) (cs : List Char) : Option Word :=
  match nameValue (valueNames idx) cs with
  | some v => some (BitVec.ofNat 32 v)
  | none => fieldNumber 32 cs

/-! ### Lines -/

/-- The commands of a mnemonic with its operands; none where they are not of the syntax. -/
def assembleCmd (mnemonic : List Char) (ops : List (List Char)) : Option (List Instr) :=
  match mnemonic, ops with
  | ['N', 'O', 'P'], [] => some [.nop]
  | ['C', 'F', 'G', '_', 'W', 'R'], [r, v] =>
    (indexOperand regNames r).bind fun idx =>
      (valueOperand idx v).map fun value => [.cfgWr idx value]
  | ['C', 'F', 'G', '_', 'R', 'D'], [r] =>
    (indexOperand regNames r).map fun idx => [.cfgRd idx]
  | ['L', 'O', 'C', 'K'], [] => some [.lock]
  | ['T', 'I', 'C', 'K'], [] => some [.tick]
  | ['O', 'U', 'T', '_', 'R', 'D'], [x, y] =>
    (fieldNumber 16 x).bind fun x => (fieldNumber 16 y).map fun y => [.outRd x y]
  | ['S', 'T', 'A', 'T', '_', 'R', 'D'], [r] =>
    (indexOperand statNames r).map fun idx => [.statRd idx]
  | ['C', 'O', 'N', 'F', 'I', 'G', 'U', 'R', 'E'], [w, h, f, b] =>
    (valueOperand 0 w).bind fun w => (valueOperand 1 h).bind fun h =>
      (valueOperand 2 f).bind fun f => (valueOperand 3 b).map fun b => configureCmds w h f b
  | ['F', 'R', 'A', 'M', 'E'], [] => some frameCmds
  | ['R', 'E', 'A', 'D', '_', 'P', 'I', 'X', 'E', 'L'], [x, y] =>
    (fieldNumber 16 x).bind fun x => (fieldNumber 16 y).map fun y => readPixelCmds x y
  | _, _ => none

/-- The commands of a line: no command for an empty line or a comment (R81). -/
def assembleLine (line : List Char) : Option (List Instr) :=
  match trimBlanks (stripComment line) with
  | [] => some []
  | cs => assembleCmd (cs.takeWhile (!isBlank ·)) (operandsOf (cs.dropWhile (!isBlank ·)))

/-- The transactions of a line (R81). -/
def assembleWords (line : List Char) : Option (List Transaction) :=
  (assembleLine line).map (·.map encode)

end Sys2Proof.Machine
end

