-- ==== Sys2Proof/Safety.lean ====
section
/-! DEFINITION. What statements speak of: the invariant of the machine, which commands each STATE
allows, and a run as 70_reset_and_hazards.md R264 gives it. -/

namespace Sys2Proof.Machine

/-- The reserved bits of every configuration register are 0 (R37). -/
def ReservedBitsZero (P : Params) (c : CfgRegs) : Prop := ∀ r, cfgGet c r = fieldOf P r (cfgGet c r)

/-- STATE agrees with LOCK_REASON and with what LOCK finds in the registers (R32, R34, R186). -/
def LifecycleAgrees (P : Params) (s : State) : Prop :=
  match s.mode with
  | .config => s.lockReason = 0
  | .run => s.lockReason = 0 ∧ firstFailingCheck P s.cfg = 0
  | .fatal => s.lockReason = firstFailingCheck P s.cfg ∧ s.lockReason ≠ 0

/-- OUT_VALID is set only in RUN, and OUT then holds the whole grid (R30, R31, R192). -/
def OutputAgrees (s : State) : Prop :=
  s.outValid = true → s.mode = .run ∧ s.out.length = widthOf s.cfg * heightOf s.cfg

/-- The invariant of the machine. -/
structure State.Inv (s : State) : Prop where
  reserved : ReservedBitsZero Config.params s.cfg
  lifecycle : LifecycleAgrees Config.params s
  output : OutputAgrees s
  /-- OUT never exceeds its capacity (R30). -/
  capacity : s.out.length ≤ Config.params.maxPixels
  /-- LAST_LEN is written by TICK only, and so outside RUN it still holds 0 (R35). -/
  lastLen : s.mode ≠ .run → s.lastLen = 0
  /-- Every target memory the host will answer a read from is in canonical form. -/
  memories : ∀ m, PortAnswer.halted m ∈ s.host.answers → Memory.wf Config.params m = true

/-- `STATE ∈ Allowed(OP)` (R72, R180, R235). -/
def allowedIn (m : Mode) : Instr → Bool
  | .nop => true
  | .cfgWr _ _ => decide (m = .config)
  | .cfgRd _ => true
  | .lock => decide (m = .config)
  | .tick => decide (m = .run)
  | .outRd _ _ => true
  | .statRd _ => true

/-- A command word is well-formed (R72 (1) to (3)), said of the word as a number: OP is
`cmd mod 16`, IDX is `cmd div 16 mod 256`, RSVD is `cmd div 4096` (R71). -/
def WellFormedWord (cmd : Word) : Prop :=
  cmd.toNat % 16 ≤ 6 ∧ cmd.toNat / 4096 = 0 ∧
    (cmd.toNat % 16 = 1 ∨ cmd.toNat % 16 = 2 → cmd.toNat / 16 % 256 ≤ 7) ∧
    (cmd.toNat % 16 = 6 → cmd.toNat / 16 % 256 ≤ 1) ∧
    (cmd.toNat % 16 = 0 ∨ cmd.toNat % 16 = 3 ∨ cmd.toNat % 16 = 4 ∨ cmd.toNat % 16 = 5 →
      cmd.toNat / 16 % 256 = 0)

/-- Validation check `k` of LOCK fails (R186). -/
def CheckFails (P : Params) (c : CfgRegs) : Nat → Prop
  | 1 => widthOf c = 0
  | 2 => heightOf c = 0
  | 3 => fmtOf c = .reserved
  | 4 => fmtOf c = .mono1bpp ∧ heightOf c % 8 ≠ 0
  | 5 => fmtOf c = .rgb565quad64 ∧ widthOf c % 4 ≠ 0
  | 6 => fpsOf c = 0
  | 7 => P.maxPixels < widthOf c * heightOf c
  | 8 => 2 ^ P.addrBits < baseOf P c + frameBytes c
  | _ => False

/-- Whether an event of the host is a transaction. -/
def HostEvent.isCommand : HostEvent → Bool
  | .command _ => true
  | .reset => false

/-- The machine after reset, with a host that will do these things and answer reads so (R264). -/
def startWith (events : List HostEvent) (answers : List PortAnswer) : State :=
  { State.reset with host := { HostSide.idle with events := events, answers := answers } }

/-- The run that takes every event the host has pending (R264). -/
def runPending (s : State) : Host.Outcome State Fault Refusal :=
  Sys2Proof.core.run s.host.events.length s

end Sys2Proof.Machine
end

