-- ==== Sys2Proof/Certificates/Slice0/Obligations.lean ====
section
/-! DEFINITION. The statements about the VSFDC, from the numbered rules of the spec.

An equation `exec i s = .next { s with … }` is a result statement, a completion statement and a frame
in one: every field it does not name is unchanged. The block has no write to target memory (R69), and
State holds no memory of the block's; the memories a host will answer from stand in `host.answers`,
and a statement that does not name them leaves them as they are. -/

open Sys2Proof Sys2Proof.Machine

/-! ### Decoding and the front end -/

/-- R71, R72, R74, R77, R81: the decoder reads back every well-formed command from its encoding. -/
def Obligations.DecodeInvertsEncode : Prop :=
  ∀ i : Instr, i.wf = true → decode (encode i) = .ok i

/-- R72, R74, R75: a word decodes to a command exactly when it is well-formed. -/
def Obligations.DecodeAcceptsExactlyWellFormedWords : Prop :=
  ∀ t : Transaction, (∃ i, decode t = .ok i) ↔ WellFormedWord t.cmd

/-- R71, R76, R81: what the decoder answers is well-formed, its encoding has the command word that was
decoded, and DATA is the value of a CFG_WR. -/
def Obligations.EncodeRecoversDecodedWord : Prop :=
  ∀ (t : Transaction) (i : Instr), decode t = .ok i →
    i.wf = true ∧ (encode i).cmd = t.cmd ∧ ∀ idx v, i = .cfgWr idx v → v = t.data

/-- R77: the operand of OUT_RD. -/
def Obligations.OutRdOperandIsTwoHalfwordsOfData : Prop :=
  ∀ (t : Transaction) (x y : Halfword), decode t = .ok (.outRd x y) →
    x.toNat = t.data.toNat % 65536 ∧ y.toNat = t.data.toNat / 65536

/-- R72, R81: one word of each command. -/
def Obligations.DecodeSampleWords : Prop :=
  decode ⟨0x00000000, 0⟩ = .ok .nop ∧
  decode ⟨0x00000011, 0x12345678⟩ = .ok (.cfgWr 1 0x12345678) ∧
  decode ⟨0x00000072, 0⟩ = .ok (.cfgRd 7) ∧
  decode ⟨0x00000003, 0⟩ = .ok .lock ∧
  decode ⟨0x00000004, 0⟩ = .ok .tick ∧
  decode ⟨0x00000005, 0x00010003⟩ = .ok (.outRd 3 1) ∧
  decode ⟨0x00000016, 0⟩ = .ok (.statRd 1)

/-- R70, R180: a step whose pending transaction decodes to a command runs that command, on the state
with the transaction taken. -/
def Obligations.StepRunsDecodedInstruction : Prop :=
  ∀ (s : State) (t : Transaction) (rest : List HostEvent) (i : Instr),
    s.host.events = .command t :: rest → decode t = .ok i →
      step s = exec i { s with host := { s.host with events := rest } }

/-- R226: a word that is not well-formed fails CMD_ILLEGAL in every STATE and changes nothing but
LAST_ERR and RESULT. -/
def Obligations.IllegalWordChangesOnlyLastErr : Prop :=
  ∀ (s : State) (t : Transaction) (rest : List HostEvent),
    s.host.events = .command t :: rest → ¬ WellFormedWord t.cmd →
      step s = .next { s with
        lastErr := .cmdIllegal
        host := { s.host with events := rest, results := s.host.results ++ [0] } }

/-- R240, R253: with nothing to do the block is idle, with all state held. That an idle block takes
steps at all is the model's choice (log 11). -/
def Obligations.IdleStepHoldsAllState : Prop :=
  ∀ s : State, s.host.events = [] → step s = .next s

/-- R227 with R72's column "allowed in STATE". -/
def Obligations.DisallowedCommandChangesOnlyLastErr : Prop :=
  ∀ (i : Instr) (s : State), i.wf = true →
    ((i = .lock ∨ ∃ idx v, i = .cfgWr idx v) ∧ s.mode ≠ .config) ∨ (i = .tick ∧ s.mode ≠ .run) →
      exec i s = .next { s with
        lastErr := .cmdState, host := { s.host with results := s.host.results ++ [0] } }

/-- `exec` of a command whose IDX is illegal, which no step runs, fails CMD_ILLEGAL, whatever STATE is.
The spec speaks of the word, which the front end turns away (`IllegalWordChangesOnlyLastErr`); that
`exec` answers for the command with the same effect is the model's own (log 15, DEDUCED). -/
def Obligations.IllegalIdxFailsBeforeStateCheck : Prop :=
  ∀ (i : Instr) (s : State), i.wf = false →
    exec i s = .next { s with
      lastErr := .cmdIllegal, host := { s.host with results := s.host.results ++ [0] } }

/-- R221, R232, R233: no command and no event stops the block. -/
def Obligations.EveryStepAnswersNextState : Prop :=
  ∀ s : State, ∃ t, step s = .next t

/-! ### NOP and the configuration registers -/

/-- R181: NOP clears LAST_ERR and changes nothing else, in every STATE. -/
def Obligations.NopClearsLastErr : Prop :=
  ∀ s : State, exec .nop s = .next { s with
    lastErr := .none, host := { s.host with results := s.host.results ++ [0] } }

/-- R182: CFG_WR stores the defined field of DATA in the register IDX names, and in no other. -/
def Obligations.CfgWrStoresDefinedField : Prop :=
  ∀ (s : State) (v : Word), s.mode = .config →
    let done := fun c : CfgRegs => Host.Outcome.next (φ := Fault) (ρ := Refusal) { s with
      cfg := c, lastErr := .none, host := { s.host with results := s.host.results ++ [0] } }
    exec (.cfgWr 0 v) s = done { s.cfg with width := BitVec.ofNat 32 (v.toNat % 2 ^ 16) } ∧
    exec (.cfgWr 1 v) s = done { s.cfg with height := BitVec.ofNat 32 (v.toNat % 2 ^ 16) } ∧
    exec (.cfgWr 2 v) s = done { s.cfg with format := BitVec.ofNat 32 (v.toNat % 2 ^ 2) } ∧
    exec (.cfgWr 3 v) s =
      done { s.cfg with base := BitVec.ofNat 32 (v.toNat % 2 ^ Config.params.addrBits) } ∧
    exec (.cfgWr 4 v) s = done { s.cfg with fgColor := BitVec.ofNat 32 (v.toNat % 2 ^ 24) } ∧
    exec (.cfgWr 5 v) s = done { s.cfg with bgColor := BitVec.ofNat 32 (v.toNat % 2 ^ 24) } ∧
    exec (.cfgWr 6 v) s = done { s.cfg with fps := BitVec.ofNat 32 (v.toNat % 2 ^ 16) } ∧
    exec (.cfgWr 7 v) s = done { s.cfg with rowmap := BitVec.ofNat 32 (v.toNat % 2 ^ 1) }

/-- R184: CFG_RD answers the register IDX names with reserved bits 0, in every STATE. -/
def Obligations.CfgRdAnswersRegister : Prop :=
  ∀ s : State,
    let done := fun n : Nat => Host.Outcome.next (φ := Fault) (ρ := Refusal) { s with
      lastErr := .none, host := { s.host with results := s.host.results ++ [BitVec.ofNat 32 n] } }
    exec (.cfgRd 0) s = done (s.cfg.width.toNat % 2 ^ 16) ∧
    exec (.cfgRd 1) s = done (s.cfg.height.toNat % 2 ^ 16) ∧
    exec (.cfgRd 2) s = done (s.cfg.format.toNat % 2 ^ 2) ∧
    exec (.cfgRd 3) s = done (s.cfg.base.toNat % 2 ^ Config.params.addrBits) ∧
    exec (.cfgRd 4) s = done (s.cfg.fgColor.toNat % 2 ^ 24) ∧
    exec (.cfgRd 5) s = done (s.cfg.bgColor.toNat % 2 ^ 24) ∧
    exec (.cfgRd 6) s = done (s.cfg.fps.toNat % 2 ^ 16) ∧
    exec (.cfgRd 7) s = done (s.cfg.rowmap.toNat % 2 ^ 1)

/-- R37: reserved bits of a configuration register are write-ignored and read as zero, and writing
one is no error. -/
def Obligations.ReservedBitsWriteIgnoredReadZero : Prop :=
  ∀ (s : State) (idx : BitVec 8) (r : CfgReg), cfgRegOfIdx idx = some r →
    (∀ v w : Word, s.mode = .config →
      v.toNat % 2 ^ fieldWidth Config.params r = w.toNat % 2 ^ fieldWidth Config.params r →
        exec (.cfgWr idx v) s = exec (.cfgWr idx w) s) ∧
    (∀ v : Word, s.mode = .config → ∃ t, exec (.cfgWr idx v) s = .next t ∧ t.lastErr = .none ∧
      (cfgGet t.cfg r).toNat = v.toNat % 2 ^ fieldWidth Config.params r) ∧
    ∃ t res, exec (.cfgRd idx) s = .next t ∧ t.host.results = s.host.results ++ [res] ∧
      res.toNat = (cfgGet s.cfg r).toNat % 2 ^ fieldWidth Config.params r

/-! ### LOCK -/

/-- R186: a configuration that passes every check is locked, and the block runs. -/
def Obligations.LockAcceptsValidConfiguration : Prop :=
  ∀ s : State, s.mode = .config → (∀ k, ¬ CheckFails Config.params s.cfg k) →
    exec .lock s = .next { s with
      mode := .run, lockReason := 0, lastErr := .none
      host := { s.host with results := s.host.results ++ [0] } }

/-- R186: a LOCK in CONFIG is `lockCfg`; for all parameters, `lockCfg` records the number of the first
check that fails, and the configuration is rejected for good. -/
def Obligations.LockRecordsFirstFailingCheck : Prop :=
  (∀ s : State, s.mode = .config → exec .lock s = .next (lockCfg Config.params s)) ∧
  ∀ (P : Params) (s : State) (k : Nat), CheckFails P s.cfg k → (∀ j < k, ¬ CheckFails P s.cfg j) →
    1 ≤ k ∧ k ≤ 8 ∧ lockCfg P s = { s with
      mode := .fatal, lockReason := BitVec.ofNat 4 k, lastErr := .unsupportedFormat
      host := { s.host with results := s.host.results ++ [0] } }

/-- R10, R186: the reset values pass every check, whatever `MAX_PIXELS` R10 allows and for every
`ADDR_BITS` whose address space holds the 1024 bytes of the default frame. -/
def Obligations.ResetConfigurationLocks : Prop :=
  ∀ P : Params, 10 ≤ P.addrBits → ∀ k, ¬ CheckFails P State.reset.cfg k

/-- R26, R168, R169: the frame of an accepted configuration lies in the address space, unit by unit,
and never has more than `2 * MAX_PIXELS` units. -/
def Obligations.AcceptedFrameNeverWraps : Prop :=
  ∀ (P : Params) (c : CfgRegs), (∀ k, ¬ CheckFails P c k) →
    1 ≤ expectedUnits c ∧ expectedUnits c ≤ 2 * P.maxPixels ∧
    ∀ i < expectedUnits c,
      unitAddress (baseOf P c) (unitWidth (fmtOf c)) i + unitBytes (unitWidth (fmtOf c))
        ≤ 2 ^ P.addrBits

/-- R168, R186: the range check has no wrap-around, and a frame that passes every other check and not
this one is rejected with check 8. The example of R168 is stated for every choice of the parameters
with its `ADDR_BITS` of 32, and so rests on no value of the machine's own (log 3). -/
def Obligations.RangeCheckHasNoWrapAround : Prop :=
  (∀ (P : Params) (c : CfgRegs),
    rangeOK P c = true ↔ baseOf P c + frameBytes c ≤ 2 ^ P.addrBits) ∧
  (∀ (P : Params) (c : CfgRegs), (∀ k < 8, ¬ CheckFails P c k) → rangeOK P c = false →
    firstFailingCheck P c = 8) ∧
  ∀ P : Params, P.addrBits = 32 →
    rangeOK P { CfgRegs.reset with base := 0xFFFFFC00 } = true ∧
    rangeOK P { CfgRegs.reset with base := 0xFFFFFC01 } = false

/-! ### The read request and its answer -/

/-- R160, R161, R162: the request of an accepted configuration, format by format, and that both RGB565
packings cover `2 * W * H` bytes. -/
def Obligations.ReadRequestGeometry : Prop :=
  ∀ (P : Params) (c : CfgRegs), (∀ k, ¬ CheckFails P c k) →
    (fmtOf c = .mono1bpp →
      readRequest P c = ⟨baseOf P c, widthOf c * (heightOf c / 8), .bits8⟩) ∧
    (fmtOf c = .rgb565le16 → readRequest P c = ⟨baseOf P c, 2 * widthOf c * heightOf c, .bits8⟩ ∧
      frameBytes c = 2 * widthOf c * heightOf c) ∧
    (fmtOf c = .rgb565quad64 → readRequest P c = ⟨baseOf P c, widthOf c / 4 * heightOf c, .bits64⟩ ∧
      frameBytes c = 2 * widthOf c * heightOf c)

/-- R50, R53: a TICK in RUN issues exactly one read request, the one of R162, and no other command
issues any. -/
def Obligations.OnlyTickIssuesOneReadRequest : Prop :=
  ∀ (i : Instr) (s : State), ∃ t, exec i s = .next t ∧
    t.host.requests = s.host.requests ++
      (if i = .tick ∧ s.mode = .run then [readRequest Config.params s.cfg] else [])

/-- R52, R190: a TICK in RUN completes whatever the outside world answers, and uses up one answer: a
decided one, or else the next free draw. Which of them answers is the model's own (log 5). -/
def Obligations.TickTakesOneAnswer : Prop :=
  ∀ s : State, s.mode = .run → ∃ t, exec .tick s = .next t ∧
    t = takeResponse Config.params
      (respond Config.params (readRequest Config.params s.cfg)
        (s.host.answers.headD (Config.portDraw s.host.draws (readRequest Config.params s.cfg))))
      { s with host := { s.host with
          answers := s.host.answers.tail
          draws := if s.host.answers = [] then s.host.draws + 1 else s.host.draws
          requests := s.host.requests ++ [readRequest Config.params s.cfg] } }

/-- R54, R56: a unit that a byte-level port reads is made of the eight bytes at its address, the lower
address in the lower bits, and of one byte where units are bytes. The byte order of such a port is the
spec's assumption (D19); answering a read from one memory is the model's (log 8). -/
def Obligations.PortAssemblesUnitsLittleEndian : Prop :=
  ∀ (P : Params) (m : Memory) (a n : Nat) (us : RawFrame),
    (memReadUnits P m .bits64 a n = some us →
      us.length = n ∧ ∀ i < n, ∀ k < 8, ∃ u, us[i]? = some u ∧
        memRead P m (a + 8 * i + k) = some (u.extractLsb' (8 * k) 8)) ∧
    (memReadUnits P m .bits8 a n = some us →
      us.length = n ∧ ∀ i < n, ∃ u, us[i]? = some u ∧ u.toNat < 256 ∧
        memRead P m (a + i) = some (u.setWidth 8))

/-! ### TICK: the frame decodes -/

/-- R100 to R102, R108, R109, R190: TICK in Mono1bpp with the corrected row mapping. -/
def Obligations.TickDecodesMonoCorrected : Prop :=
  ∀ (s : State) (us : List Quad) (rest : List PortAnswer),
    s.mode = .run → fmtOf s.cfg = .mono1bpp → s.cfg.rowmap.getLsbD 0 = false →
    heightOf s.cfg % 8 = 0 → s.host.answers = .data us :: rest →
    us.length = widthOf s.cfg * (heightOf s.cfg / 8) →
    ∃ g, exec .tick s = .next { s with
        out := g, outValid := true, lastErr := .none, lastLen := BitVec.ofNat 32 us.length
        host := { s.host with
          answers := rest
          requests := s.host.requests ++ [readRequest Config.params s.cfg]
          results := s.host.results ++ [0] } } ∧
      g.length = widthOf s.cfg * heightOf s.cfg ∧
      ∀ x < widthOf s.cfg, ∀ y < heightOf s.cfg, ∃ u,
        us[x + y / 8 * widthOf s.cfg]? = some u ∧
        g[x + y * widthOf s.cfg]? = some
          (if u.getLsbD (y % 8) then s.cfg.fgColor.setWidth 24 else s.cfg.bgColor.setWidth 24)

/-- R107, R110, R190: TICK in Mono1bpp with the legacy row mapping and the LAST_WINS collision of
R10 (log 4). Pixel (x, y) is what the last page that reaches scanline y paints there, and background
where no page reaches it. -/
def Obligations.TickDecodesMonoLegacyLastWins : Prop :=
  ∀ (s : State) (us : List Quad) (rest : List PortAnswer),
    s.mode = .run → fmtOf s.cfg = .mono1bpp → s.cfg.rowmap.getLsbD 0 = true →
    heightOf s.cfg % 8 = 0 → s.host.answers = .data us :: rest →
    us.length = widthOf s.cfg * (heightOf s.cfg / 8) →
    ∃ g, exec .tick s = .next { s with
        out := g, outValid := true, lastErr := .none, lastLen := BitVec.ofNat 32 us.length
        host := { s.host with
          answers := rest
          requests := s.host.requests ++ [readRequest Config.params s.cfg]
          results := s.host.results ++ [0] } } ∧
      g.length = widthOf s.cfg * heightOf s.cfg ∧
      ∀ x < widthOf s.cfg, ∀ y < heightOf s.cfg,
        let pages := heightOf s.cfg / 8
        let p := min (y / pages) (pages - 1)
        ∃ u, us[x + p * widthOf s.cfg]? = some u ∧
          g[x + y * widthOf s.cfg]? = some
            (if y - p * pages < 8 ∧ u.getLsbD (y - p * pages) = true then s.cfg.fgColor.setWidth 24
             else s.cfg.bgColor.setWidth 24)

/-- R107, R110: the legacy painter under the OR collision: a pixel is foreground exactly when some
page that reaches it has its bit set. -/
def Obligations.LegacyOrPaintsUnionOfPages : Prop :=
  ∀ (P : Params) (c : CfgRegs) (us : RawFrame), P.collision = .or → fgOf c ≠ bgOf c →
    ∀ x < widthOf c, ∀ y < heightOf c,
      ((decodeMonoLegacy P c us)[x + y * widthOf c]? = some (fgOf c) ↔
        ∃ p < pagesOf c, p * pagesOf c ≤ y ∧ y < p * pagesOf c + 8 ∧
          (byteAt us (x + p * widthOf c)).getLsbD (y - p * pagesOf c) = true) ∧
      ((decodeMonoLegacy P c us)[x + y * widthOf c]? = some (fgOf c) ∨
        (decodeMonoLegacy P c us)[x + y * widthOf c]? = some (bgOf c))

/-- R55, R130, R132, R136 to R139, R190: TICK in RGB565_LE16. -/
def Obligations.TickDecodesLe16 : Prop :=
  ∀ (s : State) (us : List Quad) (rest : List PortAnswer),
    s.mode = .run → fmtOf s.cfg = .rgb565le16 → s.host.answers = .data us :: rest →
    us.length = 2 * widthOf s.cfg * heightOf s.cfg →
    ∃ g, exec .tick s = .next { s with
        out := g, outValid := true, lastErr := .none, lastLen := BitVec.ofNat 32 (min us.length (2 ^ 32 - 1))
        host := { s.host with
          answers := rest
          requests := s.host.requests ++ [readRequest Config.params s.cfg]
          results := s.host.results ++ [0] } } ∧
      g.length = widthOf s.cfg * heightOf s.cfg ∧
      ∀ x < widthOf s.cfg, ∀ y < heightOf s.cfg, ∃ lo hi,
        us[2 * (x + y * widthOf s.cfg)]? = some lo ∧
        us[2 * (x + y * widthOf s.cfg) + 1]? = some hi ∧
        let v := lo.toNat % 256 + 256 * (hi.toNat % 256)
        g[x + y * widthOf s.cfg]? = some (BitVec.ofNat 24
          (v / 2048 * 8 * 65536 + v / 32 % 64 * 4 * 256 + v % 32 * 8))

/-- R56, R87, R131, R134, R136 to R138, R140, R190: TICK in RGB565_QUAD64. -/
def Obligations.TickDecodesQuad64 : Prop :=
  ∀ (s : State) (us : List Quad) (rest : List PortAnswer),
    s.mode = .run → fmtOf s.cfg = .rgb565quad64 → widthOf s.cfg % 4 = 0 →
    s.host.answers = .data us :: rest → us.length = widthOf s.cfg / 4 * heightOf s.cfg →
    ∃ g, exec .tick s = .next { s with
        out := g, outValid := true, lastErr := .none, lastLen := BitVec.ofNat 32 us.length
        host := { s.host with
          answers := rest
          requests := s.host.requests ++ [readRequest Config.params s.cfg]
          results := s.host.results ++ [0] } } ∧
      g.length = widthOf s.cfg * heightOf s.cfg ∧
      ∀ x < widthOf s.cfg, ∀ y < heightOf s.cfg, ∃ u,
        us[x / 4 + y * (widthOf s.cfg / 4)]? = some u ∧
        let v := u.toNat / 2 ^ (16 * (x % 4)) % 65536
        g[x + y * widthOf s.cfg]? = some (BitVec.ofNat 24
          (v / 2048 * 8 * 65536 + v / 32 % 64 * 4 * 256 + v % 32 * 8))

/-- R56: under the byte order of a byte-level port the two RGB565 packings decode the same target
bytes to the same grid, provided W mod 4 = 0. That byte order is the spec's assumption (D19). That a
halted target answers from one memory, and that a port that cannot read a byte of it fails both, is the
model's choice (log 8, DESIGN CHOICE). -/
def Obligations.Rgb565PackingsDecodeSameBytes : Prop :=
  ∀ (s : State) (m : Memory) (rest : List PortAnswer),
    s.mode = .run → widthOf s.cfg % 4 = 0 → s.host.answers = .halted m :: rest →
    ∃ t t', exec .tick { s with cfg := { s.cfg with format := 1 } } = .next t ∧
      exec .tick { s with cfg := { s.cfg with format := 2 } } = .next t' ∧
      t.out = t'.out ∧ t.outValid = t'.outValid ∧ t.lastErr = t'.lastErr

/-- R54, R102, R163: after a TICK over a halted target, a Mono1bpp pixel shows the bit at its
`MonoAddress`. That a halted target answers from one memory, and only where every byte asked for is
readable, is the model's choice (log 8, DESIGN CHOICE). -/
def Obligations.MonoPixelShowsBitAtItsAddress : Prop :=
  ∀ (s : State) (m : Memory) (rest : List PortAnswer) (t : State),
    s.mode = .run → fmtOf s.cfg = .mono1bpp → s.cfg.rowmap.getLsbD 0 = false →
    heightOf s.cfg % 8 = 0 → s.host.answers = .halted m :: rest →
    exec .tick s = .next t → t.lastErr = .none →
    ∀ x < widthOf s.cfg, ∀ y < heightOf s.cfg, ∃ b,
      monoAddress Config.params s.cfg x y =
        (baseOf Config.params s.cfg + x + y / 8 * widthOf s.cfg, y % 8) ∧
      memRead Config.params m (baseOf Config.params s.cfg + x + y / 8 * widthOf s.cfg) = some b ∧
      t.out[x + y * widthOf s.cfg]? = some
        (if b.getLsbD (y % 8) then s.cfg.fgColor.setWidth 24 else s.cfg.bgColor.setWidth 24)

/-- R54 to R56, R164: after a TICK over a halted target, an RGB565 pixel of either packing shows the
two bytes from `BASE + 2 * (x + y * W)` on. For RGB565_QUAD64 this rests on the byte order the spec
assumes of a byte-level port (D19). That a halted target answers from one memory, and only where every
byte asked for is readable, is the model's choice (log 8, DESIGN CHOICE). -/
def Obligations.RgbPixelShowsBytesAtItsAddress : Prop :=
  ∀ (s : State) (m : Memory) (rest : List PortAnswer) (t : State),
    s.mode = .run → fmtOf s.cfg = .rgb565le16 ∨ fmtOf s.cfg = .rgb565quad64 ∧ widthOf s.cfg % 4 = 0 →
    s.host.answers = .halted m :: rest → exec .tick s = .next t → t.lastErr = .none →
    ∀ x < widthOf s.cfg, ∀ y < heightOf s.cfg,
      let a := baseOf Config.params s.cfg + 2 * (x + y * widthOf s.cfg)
      ∃ lo hi, memRead Config.params m a = some lo ∧ memRead Config.params m (a + 1) = some hi ∧
        t.out[x + y * widthOf s.cfg]? = some (rgb565ToColour (hi ++ lo))

/-! ### TICK: the errors -/

/-- R167, R223: a response of the wrong length, long or short, skips this TICK only: STATE stays RUN,
and the next TICK runs as if this one had not been, and decodes a frame of the right length. -/
def Obligations.FrameSizeMismatchSkipsOneTick : Prop :=
  ∀ (s : State) (us : RawFrame), s.mode = .run →
    let req := readRequest Config.params s.cfg
    respond Config.params req (nextAnswer s.host req) = .data us → us.length ≠ expectedUnits s.cfg →
    ∃ t, exec .tick s = .next t ∧ t = { s with
        lastErr := .frameSizeMismatch, lastLen := BitVec.ofNat 32 (min us.length (2 ^ 32 - 1))
        host := { afterRead s.host req with results := s.host.results ++ [0] } } ∧
      exec .tick t = exec .tick { s with host := t.host } ∧
      ∀ vs, respond Config.params req (nextAnswer t.host req) = .data vs →
        vs.length = expectedUnits s.cfg →
        ∃ t', exec .tick t = .next t' ∧ t'.lastErr = .none ∧ t'.outValid = true ∧ t'.mode = .run

/-- R190, R225: a read that fails skips this TICK only, in the same way. -/
def Obligations.ReadFailureSkipsOneTick : Prop :=
  ∀ s : State, s.mode = .run →
    let req := readRequest Config.params s.cfg
    respond Config.params req (nextAnswer s.host req) = .fail →
    ∃ t, exec .tick s = .next t ∧ t = { s with
        lastErr := .readFailure, lastLen := 0
        host := { afterRead s.host req with results := s.host.results ++ [0] } } ∧
      exec .tick t = exec .tick { s with host := t.host } ∧
      ∀ vs, respond Config.params req (nextAnswer t.host req) = .data vs →
        vs.length = expectedUnits s.cfg →
        ∃ t', exec .tick t = .next t' ∧ t'.lastErr = .none ∧ t'.outValid = true ∧ t'.mode = .run

/-! ### The decoders as functions -/

/-- R105: under the corrected mapping the visits of a frame and the pixels of the grid correspond one
to one, and the mapping is inverse to `PixelToUnit` with `UnitToPage`. -/
def Obligations.CorrectedVisitsCoverGridOnce : Prop :=
  ∀ w pages : Nat,
    (∀ x y, x < w → y < 8 * pages →
      ∃! v, v ∈ monoVisits w pages ∧ scanMapCorrected v = (x, y)) ∧
    (∀ x y, x < w → y < 8 * pages →
      ⟨y / 8, x, y % 8⟩ ∈ monoVisits w pages ∧ scanMapCorrected ⟨y / 8, x, y % 8⟩ = (x, y)) ∧
    ∀ v ∈ monoVisits w pages,
      (scanMapCorrected v).1 < w ∧ (scanMapCorrected v).2 < 8 * pages ∧
      let ib := pixelToUnit w (scanMapCorrected v).1 (scanMapCorrected v).2
      unitToPage w ib.1 = (v.p, v.c) ∧ ib.2 = v.b

/-- R166: the sequencer visits pages outermost, then columns, then bits. -/
def Obligations.VisitsRunPageColumnBit : Prop :=
  ∀ w pages : Nat, (monoVisits w pages).length = 8 * w * pages ∧
    ∀ p c b, p < pages → c < w → b < 8 → (monoVisits w pages)[8 * (c + p * w) + b]? = some ⟨p, c, b⟩

/-- R111: the two row mappings agree exactly when pages is 1 or 8. -/
def Obligations.LegacyAgreesAtOneOrEightPages : Prop :=
  (∀ (pages : Nat) (v : Visit), pages = 1 ∨ pages = 8 → v.p < pages →
    scanMapLegacy pages v = scanMapCorrected v) ∧
  (∀ (P : Params) (c : CfgRegs) (us : RawFrame), pagesOf c = 1 ∨ pagesOf c = 8 →
    heightOf c % 8 = 0 → decodeMonoLegacy P c us = decodeMonoCorrected c us) ∧
  ∀ pages : Nat, pages ≠ 1 → pages ≠ 8 → scanMapLegacy pages ⟨1, 0, 0⟩ ≠ scanMapCorrected ⟨1, 0, 0⟩

/-- R112: the scanlines the legacy mapping never visits stay background. -/
def Obligations.LegacyGapsStayBackground : Prop :=
  ∀ (P : Params) (c : CfgRegs) (us : RawFrame) (x y : Nat), x < widthOf c → y < heightOf c →
    (1 < pagesOf c ∧ pagesOf c < 8 ∧ (pagesOf c - 1) * pagesOf c + 8 ≤ y) ∨
      (8 < pagesOf c ∧ 8 ≤ y % pagesOf c) →
    (decodeMonoLegacy P c us)[x + y * widthOf c]? = some (bgOf c)

/-- R109: a frame with exactly one set bit, at byte i and bit b, lights exactly the pixel
(i mod W, b + 8 * (i div W)). -/
def Obligations.SingleBitLightsExactlyOnePixel : Prop :=
  ∀ (c : CfgRegs) (i b x y : Nat), heightOf c % 8 = 0 → i < widthOf c * pagesOf c → b < 8 →
    x < widthOf c → y < heightOf c →
    (decodeMonoCorrected c
        ((List.replicate (widthOf c * pagesOf c) (0 : Quad)).set i (BitVec.ofNat 64 (2 ^ b))))[
          x + y * widthOf c]? =
      some (if x = i % widthOf c ∧ y = b + 8 * (i / widthOf c) then fgOf c else bgOf c)

/-- R109, R110: an all-zero frame is all background, under both row mappings and both collisions. -/
def Obligations.ZeroFrameIsAllBackground : Prop :=
  ∀ (P : Params) (c : CfgRegs) (us : RawFrame), fmtOf c = .mono1bpp → heightOf c % 8 = 0 →
    us.length = widthOf c * pagesOf c → (∀ u ∈ us, u = 0) →
    decodeFrame P c us = List.replicate (widthOf c * heightOf c) (bgOf c)

/-- R138: the colour of an RGB565 pixel in closed form; the function is injective, and its image is
the colours whose low channel bits are zero. -/
def Obligations.Rgb565ColourClosedFormInjective : Prop :=
  (∀ v : Halfword, (rgb565ToColour v).toNat =
    v.toNat / 2 ^ 11 * 2 ^ 19 + v.toNat / 2 ^ 5 % 2 ^ 6 * 2 ^ 10 + v.toNat % 2 ^ 5 * 2 ^ 3) ∧
  (∀ v w : Halfword, rgb565ToColour v = rgb565ToColour w → v = w) ∧
  (∀ col : Colour, (∃ v, rgb565ToColour v = col) ↔
    col.toNat % 2 ^ 3 = 0 ∧ col.toNat / 2 ^ 8 % 2 ^ 2 = 0 ∧ col.toNat / 2 ^ 16 % 2 ^ 3 = 0) ∧
  rgb565ToColour 0xF800 = 0xF80000 ∧ rgb565ToColour 0x07E0 = 0x00FC00 ∧
  rgb565ToColour 0x001F = 0x0000F8

/-- R137: the expander scales by 8, 4 and 8, and does not overflow. -/
def Obligations.ExpandScalesByShiftOnly : Prop :=
  ∀ ch : Channels, (expand ch).r.toNat = ch.r5.toNat * 8 ∧ (expand ch).g.toNat = ch.g6.toNat * 4 ∧
    (expand ch).b.toNat = ch.b5.toNat * 8

/-- R141: for both packings, the pixel that comes k-th in memory order is grid position
(k mod W, k div W). -/
def Obligations.RgbOutputOrderIsMemoryOrder : Prop :=
  ∀ (c : CfgRegs) (us : RawFrame),
    (∀ k, cellIndex (widthOf c) (k % widthOf c) (k / widthOf c) = k) ∧
    (∀ j < widthOf c * heightOf c, (decodeLE16 c us)[j]? = some (rgb565ToColour (unpack16 us j))) ∧
    (widthOf c % 4 = 0 → ∀ q < widthOf c / 4 * heightOf c, ∀ l < 4,
      (decodeQuad c us)[4 * q + l]? = some (rgb565ToColour (unpackQuad (unitAt us q) l)))

/-- R139, R140, R188: the RGB565 decoders use no colour register and no ROWMAP, and no decoder uses
FPS: such registers do not show in what a TICK leaves. -/
def Obligations.TickIgnoresUnusedRegisters : Prop :=
  ∀ (s : State) (fg bg rowmap fps : Word), s.mode = .run →
    (fmtOf s.cfg = .mono1bpp → fg = s.cfg.fgColor ∧ bg = s.cfg.bgColor ∧ rowmap = s.cfg.rowmap) →
    ∃ t, exec .tick s = .next t ∧
      exec .tick { s with
        cfg := { s.cfg with fgColor := fg, bgColor := bg, rowmap := rowmap, fps := fps } } =
      .next { t with
        cfg := { s.cfg with fgColor := fg, bgColor := bg, rowmap := rowmap, fps := fps } }

/-! ### OUT_RD and STAT_RD -/

/-- R192: OUT_RD answers the pixel of the grid. A grid without that cell, which no run reaches with
OUT_VALID set, gives a free value (log 6). -/
def Obligations.OutRdAnswersPixel : Prop :=
  ∀ (s : State) (x y : Halfword), s.outValid = true →
    x.toNat < widthOf s.cfg → y.toNat < heightOf s.cfg →
    ∃ col : Colour,
      exec (.outRd x y) s = .next { s with
        lastErr := .none
        host := { s.host with results := s.host.results ++ [BitVec.ofNat 32 col.toNat] } } ∧
      ∀ p, s.out[x.toNat + y.toNat * widthOf s.cfg]? = some p → col = p

/-- R228: OUT_EMPTY and OUT_RANGE change nothing but LAST_ERR and RESULT, and OUT_EMPTY comes first. -/
def Obligations.OutRdErrorsChangeOnlyLastErr : Prop :=
  ∀ (s : State) (x y : Halfword),
    (s.outValid = false → exec (.outRd x y) s = .next { s with
      lastErr := .outEmpty, host := { s.host with results := s.host.results ++ [0] } }) ∧
    (s.outValid = true → widthOf s.cfg ≤ x.toNat ∨ heightOf s.cfg ≤ y.toNat →
      exec (.outRd x y) s = .next { s with
        lastErr := .outRange, host := { s.host with results := s.host.results ++ [0] } })

/-- R36, R220: STAT_RD answers STATUS with the fields of R36's table, or LAST_LEN, and changes
nothing; with the codes the fields hold. -/
def Obligations.StatRdAnswersStatusFields : Prop :=
  ∀ s : State,
    (∃ res : Word, exec (.statRd 0) s = .next { s with
        host := { s.host with results := s.host.results ++ [res] } } ∧
      res.extractLsb' 0 2 = modeCode s.mode ∧ res.getLsbD 2 = s.outValid ∧ res.getLsbD 3 = false ∧
      res.extractLsb' 4 4 = errCode s.lastErr ∧ res.extractLsb' 8 4 = s.lockReason ∧
      res.toNat < 2 ^ 12) ∧
    exec (.statRd 1) s = .next { s with
      host := { s.host with results := s.host.results ++ [s.lastLen] } } ∧
    modeCode .config = 0 ∧ modeCode .run = 1 ∧ modeCode .fatal = 2 ∧ errCode .none = 0 ∧
    errCode .frameSizeMismatch = 1 ∧ errCode .unsupportedFormat = 2 ∧ errCode .readFailure = 3 ∧
    errCode .cmdIllegal = 4 ∧ errCode .cmdState = 5 ∧ errCode .outRange = 6 ∧ errCode .outEmpty = 7

/-! ### Who writes what -/

/-- R32: the lifecycle. -/
def Obligations.OnlyLockAndResetChangeState : Prop :=
  State.reset.mode = .config ∧ modeCode .config = 0 ∧ modeCode .run = 1 ∧ modeCode .fatal = 2 ∧
  (∀ m, modeCode m ≠ 3) ∧
  (∀ s t : State, step s = .next t → t.mode ≠ s.mode →
    (s.host.events.head? = some .reset ∧ t.mode = .config) ∨
    (∃ tr rest, s.host.events = .command tr :: rest ∧ decode tr = .ok .lock ∧ s.mode = .config ∧
      ((firstFailingCheck Config.params s.cfg = 0 ∧ t.mode = .run) ∨
        (firstFailingCheck Config.params s.cfg ≠ 0 ∧ t.mode = .fatal)))) ∧
  (∀ s : State, s.mode = .config → ∃ t, exec .lock s = .next t ∧
    t.mode = if firstFailingCheck Config.params s.cfg = 0 then .run else .fatal) ∧
  ∀ (s : State) (idx : BitVec 8) (v : Word), s.mode ≠ .config → idx.toNat ≤ 7 →
    ∃ t, exec (.cfgWr idx v) s = .next t ∧ t.cfg = s.cfg ∧ t.lastErr = .cmdState

/-- R256: in RUN and FATAL the configuration, STATE and LOCK_REASON stay as LOCK left them over any
number of steps without a reset. -/
def Obligations.ConfigurationFrozenUntilReset : Prop :=
  ∀ (n : Nat) (s t : State), s.mode ≠ .config → HostEvent.reset ∉ s.host.events →
    Sys2Proof.core.run n s = .next t →
      t.cfg = s.cfg ∧ t.mode = s.mode ∧ t.lockReason = s.lockReason

/-- R31: OUT_VALID. -/
def Obligations.OutValidSetByTickClearedByReset : Prop :=
  State.reset.outValid = false ∧
  (∀ s t : State, s.mode = .run → exec .tick s = .next t → t.lastErr = .none →
    t.outValid = true) ∧
  (∀ s t : State, step s = .next t → s.outValid = false → t.outValid = true →
    ∃ tr rest, s.host.events = .command tr :: rest ∧ decode tr = .ok .tick) ∧
  (∀ s t : State, step s = .next t → s.outValid = true → t.outValid = false →
    s.host.events.head? = some .reset) ∧
  ∀ s : State, (statusWord s).getLsbD 2 = s.outValid

/-- R30, R222: OUT changes only in a TICK that decodes a frame, and by reset. -/
def Obligations.OutChangedOnlyBySuccessfulTick : Prop :=
  ∀ s t : State, step s = .next t → t.out ≠ s.out →
    s.host.events.head? = some .reset ∨
    ∃ tr rest, s.host.events = .command tr :: rest ∧ decode tr = .ok .tick ∧ s.mode = .run ∧
      t.lastErr = .none ∧ t.outValid = true

/-- R33: every command writes LAST_ERR, except a STAT_RD that succeeds: what it leaves does not depend
on what LAST_ERR was. -/
def Obligations.EveryCommandButStatRdWritesLastErr : Prop :=
  State.reset.lastErr = .none ∧
  (∀ (i : Instr) (s t : State) (e : ErrCode), (∀ idx : BitVec 8, idx.toNat ≤ 1 → i ≠ .statRd idx) →
    exec i s = .next t → exec i { s with lastErr := e } = .next t) ∧
  (∀ (s : State) (t : Transaction) (rest : List HostEvent) (e : ErrCode),
    s.host.events = .command t :: rest → ¬ WellFormedWord t.cmd →
      step { s with lastErr := e } = step s) ∧
  (∀ (s : State) (idx : BitVec 8), idx.toNat ≤ 1 →
    ∃ t, exec (.statRd idx) s = .next t ∧ t.lastErr = s.lastErr)

/-- R34: LOCK_REASON. -/
def Obligations.OnlyLockWritesLockReason : Prop :=
  State.reset.lockReason = 0 ∧
  (∀ s : State, s.mode = .config → ∃ t, exec .lock s = .next t ∧
    (∀ k, CheckFails Config.params s.cfg k → (∀ j < k, ¬ CheckFails Config.params s.cfg j) →
      t.lockReason.toNat = k) ∧
    ((∀ k, ¬ CheckFails Config.params s.cfg k) → t.lockReason = 0)) ∧
  ∀ s t : State, step s = .next t → t.lockReason ≠ s.lockReason →
    s.host.events.head? = some .reset ∨
    ∃ tr rest, s.host.events = .command tr :: rest ∧ decode tr = .ok .lock ∧ s.mode = .config

/-- R35: LAST_LEN. -/
def Obligations.OnlyTickWritesLastLen : Prop :=
  State.reset.lastLen = 0 ∧
  (∀ s : State, s.mode = .run → ∃ t, exec .tick s = .next t ∧
    let resp := respond Config.params (readRequest Config.params s.cfg)
      (nextAnswer s.host (readRequest Config.params s.cfg))
    (resp = .fail → t.lastLen = 0) ∧
      ∀ us, resp = .data us → t.lastLen.toNat = min us.length (2 ^ 32 - 1)) ∧
  ∀ s t : State, step s = .next t → t.lastLen ≠ s.lastLen →
    s.host.events.head? = some .reset ∨
    ∃ tr rest, s.host.events = .command tr :: rest ∧ decode tr = .ok .tick ∧ s.mode = .run

/-- R224: a rejected configuration is fatal until reset. -/
def Obligations.FatalUntilReset : Prop :=
  (∀ s t : State, s.mode = .config → exec .lock s = .next t → t.lastErr = .unsupportedFormat →
    t.mode = .fatal) ∧
  ∀ s : State, s.mode = .fatal →
    (∀ i, i = .tick ∨ i = .lock ∨ (∃ idx v, i = .cfgWr idx v ∧ idx.toNat ≤ 7) →
      ∃ t, exec i s = .next t ∧ t.lastErr = .cmdState) ∧
    (∀ t, step s = .next t → t.mode ≠ .fatal →
      s.host.events.head? = some .reset ∧ t.mode = .config) ∧
    (∀ rest, s.host.events = .reset :: rest → ∃ t, step s = .next t ∧ t.mode = .config) ∧
    ∀ i : Instr, i.wf = true → i = .nop ∨ (∃ idx, i = .cfgRd idx) ∨ (∃ x y, i = .outRd x y) ∨
        (∃ idx, i = .statRd idx) →
      ∀ e, ∃ t, exec i { s with lastErr := e } = .next t ∧ (e ≠ .cmdState → t.lastErr ≠ .cmdState) ∧
        t.mode = .fatal

/-- R252: what reset leaves; OUT is unspecified and so not named. -/
def Obligations.ResetLeavesResetValues : Prop :=
  ∀ (s : State) (rest : List HostEvent), s.host.events = .reset :: rest →
    ∃ t, step s = .next t ∧
      t.cfg = { width := 0x80, height := 0x40, format := 0, base := 0, fgColor := 0x00FFFFFF,
                bgColor := 0, fps := 0x3C, rowmap := 0 } ∧
      t.outValid = false ∧ t.mode = .config ∧ t.lastErr = .none ∧ t.lockReason = 0 ∧
      t.lastLen = 0 ∧ statusWord t = 0 ∧
      State.reset = { t with out := [], host := HostSide.idle }

/-! ### The machine as a whole -/

/-- The invariant of `State.Inv` holds after reset. -/
def Obligations.ResetMeetsInvariant : Prop := State.reset.Inv

/-- Every step keeps the invariant: R32 and R186 (STATE, LOCK_REASON and the registers agree), R37
(reserved bits are 0), R30 and R192 (OUT_VALID only in RUN, with a whole grid within its capacity),
R35 (LAST_LEN). -/
def Obligations.EveryStepKeepsInvariant : Prop :=
  ∀ s t : State, s.Inv → step s = .next t → t.Inv

/-- R263, R264: a run takes every event the host has pending, never stops, and answers one RESULT per
command. That the host's pending events are a list in State is the model's own (log 1). -/
def Obligations.RunAnswersEveryCommand : Prop :=
  ∀ s : State, ∃ t, runPending s = .next t ∧ t.host.events = [] ∧
    ∃ rs, t.host.results = s.host.results ++ rs ∧
      rs.length = (s.host.events.filter HostEvent.isCommand).length

/-- R82, R254: the commands of `CONFIGURE w, h, fmt, base` bring the block from reset into RUN with
that configuration, if LOCK finds it valid, and into FATAL if not. That the host's pending commands
are a list in State is the model's own (log 1). -/
def Obligations.ConfigureBringsBlockIntoService : Prop :=
  ∀ (w h fmt base : Word) (answers : List PortAnswer), ∃ t,
    runPending (startWith ((configureCmds w h fmt base).map fun i => .command (encode i)) answers) =
      .next t ∧
    widthOf t.cfg = w.toNat % 65536 ∧ heightOf t.cfg = h.toNat % 65536 ∧
    t.cfg.format.toNat = fmt.toNat % 4 ∧
    baseOf Config.params t.cfg = base.toNat % 2 ^ Config.params.addrBits ∧
    fpsOf t.cfg = 60 ∧ t.cfg.fgColor = 0xFFFFFF ∧ t.cfg.bgColor = 0 ∧ t.cfg.rowmap = 0 ∧
    ((∀ k, ¬ CheckFails Config.params t.cfg k) → t.mode = .run ∧ t.lastErr = .none) ∧
    ((∃ k, CheckFails Config.params t.cfg k) → t.mode = .fatal ∧ t.lastErr = .unsupportedFormat)
end

