-- ==== Sys2Proof/Laws/Operands.lean ====
section
/-! SUPPORT. The register file: reading after writing, the defined field of a register, and the ranges
of the fields the decoder uses. -/

namespace Sys2Proof.Machine

theorem cfgGet_cfgSet_self (c : CfgRegs) (r : CfgReg) (v : Word) : cfgGet (cfgSet c r v) r = v := by
  cases r <;> rfl

theorem cfgGet_cfgSet_of_ne (c : CfgRegs) {r r' : CfgReg} (v : Word) (h : r' ≠ r) :
    cfgGet (cfgSet c r v) r' = cfgGet c r' := by
  cases r <;> cases r' <;> first | rfl | exact absurd rfl h

/-- Cutting a value to its field twice is cutting it once. -/
@[simp] theorem fieldOf_fieldOf (P : Params) (r : CfgReg) (v : Word) :
    fieldOf P r (fieldOf P r v) = fieldOf P r v := by
  unfold fieldOf
  ext i hi
  simp only [BitVec.getElem_setWidth, BitVec.getLsbD_setWidth]
  by_cases h : i < fieldWidth P r <;> simp [h, hi]

theorem fieldOf_toNat (P : Params) (r : CfgReg) (v : Word) :
    (fieldOf P r v).toNat = v.toNat % 2 ^ fieldWidth P r := by
  unfold fieldOf
  simp only [BitVec.toNat_setWidth]
  exact Nat.mod_eq_of_lt (lt_of_le_of_lt (Nat.mod_le _ _) v.isLt)

theorem cfgRegOfIdx_isSome_iff (idx : BitVec 8) : (cfgRegOfIdx idx).isSome ↔ idx.toNat ≤ 7 := by
  unfold cfgRegOfIdx
  split <;> simp_all
  omega

theorem statRegOfIdx_isSome_iff (idx : BitVec 8) : (statRegOfIdx idx).isSome ↔ idx.toNat ≤ 1 := by
  unfold statRegOfIdx
  split <;> simp_all
  omega

theorem cfgRegOfIdx_eq_none {idx : BitVec 8} (h : 7 < idx.toNat) : cfgRegOfIdx idx = none := by
  have := (cfgRegOfIdx_isSome_iff idx).not.mpr (by omega)
  simpa using this

theorem statRegOfIdx_eq_none {idx : BitVec 8} (h : 1 < idx.toNat) : statRegOfIdx idx = none := by
  have := (statRegOfIdx_isSome_iff idx).not.mpr (by omega)
  simpa using this

theorem widthOf_lt (c : CfgRegs) : widthOf c < 65536 := by
  have := (c.width.setWidth Config.dimBits).isLt
  simpa [widthOf, Config.dimBits] using this

theorem heightOf_lt (c : CfgRegs) : heightOf c < 65536 := by
  have := (c.height.setWidth Config.dimBits).isLt
  simpa [heightOf, Config.dimBits] using this

theorem baseOf_lt (P : Params) (c : CfgRegs) : baseOf P c < 2 ^ P.addrBits :=
  (c.base.setWidth P.addrBits).isLt

theorem heightOf_eq_of_mod {c : CfgRegs} (h : heightOf c % 8 = 0) : heightOf c = 8 * pagesOf c := by
  unfold pagesOf; omega

/-- R186's check 7 compares with `MAX_PIXELS`. -/
theorem overCapacity_iff (P : Params) (n : Nat) : overCapacity P n = true ↔ P.maxPixels < n := by
  unfold overCapacity Params.maxPixels
  rw [decide_eq_true_iff]
  omega

end Sys2Proof.Machine
end

