-- ==== Sys2Proof/Laws/State.lean ====
section
/-! SUPPORT. What each shared update of the state leaves in each field: one lemma per field per
update, all true by definition. -/

namespace Sys2Proof.Machine

variable (s : State) (v : Word) (e : ErrCode)

/-! ### `answer` -/

@[simp] theorem answer_toBlock : (answer v s).toBlock = s.toBlock := rfl
@[simp] theorem answer_cfg : (answer v s).cfg = s.cfg := rfl
@[simp] theorem answer_out : (answer v s).out = s.out := rfl
@[simp] theorem answer_outValid : (answer v s).outValid = s.outValid := rfl
@[simp] theorem answer_mode : (answer v s).mode = s.mode := rfl
@[simp] theorem answer_lastErr : (answer v s).lastErr = s.lastErr := rfl
@[simp] theorem answer_lockReason : (answer v s).lockReason = s.lockReason := rfl
@[simp] theorem answer_lastLen : (answer v s).lastLen = s.lastLen := rfl
@[simp] theorem answer_events : (answer v s).host.events = s.host.events := rfl
@[simp] theorem answer_answers : (answer v s).host.answers = s.host.answers := rfl
@[simp] theorem answer_draws : (answer v s).host.draws = s.host.draws := rfl
@[simp] theorem answer_requests : (answer v s).host.requests = s.host.requests := rfl
@[simp] theorem answer_results : (answer v s).host.results = s.host.results ++ [v] := rfl

/-! ### `okCmd` -/

@[simp] theorem okCmd_toBlock : (okCmd v s).toBlock = { s.toBlock with lastErr := .none } := rfl
@[simp] theorem okCmd_cfg : (okCmd v s).cfg = s.cfg := rfl
@[simp] theorem okCmd_out : (okCmd v s).out = s.out := rfl
@[simp] theorem okCmd_outValid : (okCmd v s).outValid = s.outValid := rfl
@[simp] theorem okCmd_mode : (okCmd v s).mode = s.mode := rfl
@[simp] theorem okCmd_lastErr : (okCmd v s).lastErr = .none := rfl
@[simp] theorem okCmd_lockReason : (okCmd v s).lockReason = s.lockReason := rfl
@[simp] theorem okCmd_lastLen : (okCmd v s).lastLen = s.lastLen := rfl
@[simp] theorem okCmd_events : (okCmd v s).host.events = s.host.events := rfl
@[simp] theorem okCmd_answers : (okCmd v s).host.answers = s.host.answers := rfl
@[simp] theorem okCmd_draws : (okCmd v s).host.draws = s.host.draws := rfl
@[simp] theorem okCmd_requests : (okCmd v s).host.requests = s.host.requests := rfl
@[simp] theorem okCmd_results : (okCmd v s).host.results = s.host.results ++ [v] := rfl

/-! ### `failCmd` -/

@[simp] theorem failCmd_toBlock : (failCmd e s).toBlock = { s.toBlock with lastErr := e } := rfl
@[simp] theorem failCmd_cfg : (failCmd e s).cfg = s.cfg := rfl
@[simp] theorem failCmd_out : (failCmd e s).out = s.out := rfl
@[simp] theorem failCmd_outValid : (failCmd e s).outValid = s.outValid := rfl
@[simp] theorem failCmd_mode : (failCmd e s).mode = s.mode := rfl
@[simp] theorem failCmd_lastErr : (failCmd e s).lastErr = e := rfl
@[simp] theorem failCmd_lockReason : (failCmd e s).lockReason = s.lockReason := rfl
@[simp] theorem failCmd_lastLen : (failCmd e s).lastLen = s.lastLen := rfl
@[simp] theorem failCmd_events : (failCmd e s).host.events = s.host.events := rfl
@[simp] theorem failCmd_answers : (failCmd e s).host.answers = s.host.answers := rfl
@[simp] theorem failCmd_draws : (failCmd e s).host.draws = s.host.draws := rfl
@[simp] theorem failCmd_requests : (failCmd e s).host.requests = s.host.requests := rfl
@[simp] theorem failCmd_results : (failCmd e s).host.results = s.host.results ++ [0] := rfl

/-! ### `popEvent` -/

@[simp] theorem popEvent_toBlock : (popEvent s).toBlock = s.toBlock := rfl
@[simp] theorem popEvent_cfg : (popEvent s).cfg = s.cfg := rfl
@[simp] theorem popEvent_out : (popEvent s).out = s.out := rfl
@[simp] theorem popEvent_outValid : (popEvent s).outValid = s.outValid := rfl
@[simp] theorem popEvent_mode : (popEvent s).mode = s.mode := rfl
@[simp] theorem popEvent_lastErr : (popEvent s).lastErr = s.lastErr := rfl
@[simp] theorem popEvent_lockReason : (popEvent s).lockReason = s.lockReason := rfl
@[simp] theorem popEvent_lastLen : (popEvent s).lastLen = s.lastLen := rfl
@[simp] theorem popEvent_events : (popEvent s).host.events = s.host.events.tail := rfl
@[simp] theorem popEvent_answers : (popEvent s).host.answers = s.host.answers := rfl
@[simp] theorem popEvent_draws : (popEvent s).host.draws = s.host.draws := rfl
@[simp] theorem popEvent_requests : (popEvent s).host.requests = s.host.requests := rfl
@[simp] theorem popEvent_results : (popEvent s).host.results = s.host.results := rfl

/-! ### `pushEvent` -/

@[simp] theorem pushEvent_toBlock (ev : HostEvent) : (pushEvent ev s).toBlock = s.toBlock := rfl
@[simp] theorem pushEvent_events (ev : HostEvent) :
    (pushEvent ev s).host.events = ev :: s.host.events := rfl
@[simp] theorem popEvent_pushEvent (ev : HostEvent) : popEvent (pushEvent ev s) = s := rfl

/-! ### Reset -/

@[simp] theorem Block.reset_cfg : Block.reset.cfg = CfgRegs.reset := rfl
@[simp] theorem Block.reset_out : Block.reset.out = [] := rfl
@[simp] theorem Block.reset_outValid : Block.reset.outValid = false := rfl
@[simp] theorem Block.reset_mode : Block.reset.mode = .config := rfl
@[simp] theorem Block.reset_lastErr : Block.reset.lastErr = .none := rfl
@[simp] theorem Block.reset_lockReason : Block.reset.lockReason = 0 := rfl
@[simp] theorem Block.reset_lastLen : Block.reset.lastLen = 0 := rfl
@[simp] theorem State.reset_toBlock : State.reset.toBlock = Block.reset := rfl
@[simp] theorem State.reset_host : State.reset.host = HostSide.idle := rfl

/-! ### `applyReset` -/

@[simp] theorem applyReset_toBlock : (applyReset s).toBlock = Block.reset := rfl
@[simp] theorem applyReset_cfg : (applyReset s).cfg = CfgRegs.reset := rfl
@[simp] theorem applyReset_out : (applyReset s).out = [] := rfl
@[simp] theorem applyReset_outValid : (applyReset s).outValid = false := rfl
@[simp] theorem applyReset_mode : (applyReset s).mode = .config := rfl
@[simp] theorem applyReset_lastErr : (applyReset s).lastErr = .none := rfl
@[simp] theorem applyReset_lockReason : (applyReset s).lockReason = 0 := rfl
@[simp] theorem applyReset_lastLen : (applyReset s).lastLen = 0 := rfl
@[simp] theorem applyReset_host : (applyReset s).host = s.host := rfl

/-! ### `afterRead` -/

variable (h : HostSide) (req : ReadRequest)

@[simp] theorem afterRead_events : (afterRead h req).events = h.events := rfl
@[simp] theorem afterRead_answers : (afterRead h req).answers = h.answers.tail := rfl
@[simp] theorem afterRead_requests : (afterRead h req).requests = h.requests ++ [req] := rfl
@[simp] theorem afterRead_results : (afterRead h req).results = h.results := rfl

/-! ### `inMode`: the STATE check lets its command run, or ends it with CMD_STATE -/

theorem inMode_of_eq {m : Mode} {s k : State} (hm : s.mode = m) : inMode m s k = k := by
  simp [inMode, hm]

theorem inMode_of_ne {m : Mode} {s k : State} (hm : s.mode ≠ m) :
    inMode m s k = failCmd .cmdState s := by
  simp [inMode, hm]

end Sys2Proof.Machine
end

