-- ==== Sys2Proof/Laws/Port.lean ====
section
/-! SUPPORT. The memory read port: what a successful read of target memory has read, and what one read
does to the host's side. -/

namespace Sys2Proof.Machine

/-- If `n` bytes were read, they are the bytes at the `n` addresses from `a` on. -/
theorem memReadBytes_spec (P : Params) (m : Memory) :
    ∀ (n a : Nat) (bs : List Byte), memReadBytes P m a n = some bs →
      bs.length = n ∧ ∀ j, j < n → memRead P m (a + j) = bs[j]?
  | 0, a, bs, h => by
    obtain rfl : bs = [] := by simpa [memReadBytes] using h.symm
    simp
  | n + 1, a, bs, h => by
    unfold memReadBytes at h
    split at h
    · rename_i b bs' hb hbs
      obtain rfl : bs = b :: bs' := by simpa using h.symm
      obtain ⟨hl, ih⟩ := memReadBytes_spec P m n (a + 1) bs' hbs
      refine ⟨by simp [hl], fun j hj => ?_⟩
      cases j with
      | zero => simpa using hb
      | succ j =>
        have := ih j (by omega)
        rw [show a + (j + 1) = a + 1 + j by omega, this]
        simp
    · cases h

/-- The read of `n` bytes succeeds when each of them can be read. -/
theorem memReadBytes_isSome (P : Params) (m : Memory) :
    ∀ (n a : Nat), (∀ j, j < n → (memRead P m (a + j)).isSome) → (memReadBytes P m a n).isSome
  | 0, a, _ => rfl
  | n + 1, a, h => by
    obtain ⟨b, hb⟩ := Option.isSome_iff_exists.mp (h 0 (by omega))
    obtain ⟨bs, hbs⟩ := Option.isSome_iff_exists.mp
      (memReadBytes_isSome P m n (a + 1) fun j hj => by
        have := h (j + 1) (by omega)
        rwa [show a + (j + 1) = a + 1 + j by omega] at this)
    simp only [Nat.add_zero] at hb
    simp [memReadBytes, hb, hbs]

/-- If `n` units were read, unit `i` is made of the bytes at its address. -/
theorem memReadUnits_spec (P : Params) (m : Memory) (w : UnitWidth) :
    ∀ (n a : Nat) (us : RawFrame), memReadUnits P m w a n = some us →
      us.length = n ∧ ∀ i, i < n → ∃ bs, memReadBytes P m (a + i * unitBytes w) (unitBytes w) = some bs ∧
        us[i]? = some (littleEndian bs)
  | 0, a, us, h => by
    obtain rfl : us = [] := by simpa [memReadUnits] using h.symm
    simp
  | n + 1, a, us, h => by
    unfold memReadUnits at h
    split at h
    · rename_i bs us' hb hus
      obtain rfl : us = littleEndian bs :: us' := by simpa using h.symm
      obtain ⟨hl, ih⟩ := memReadUnits_spec P m w n (a + unitBytes w) us' hus
      refine ⟨by simp [hl], fun i hi => ?_⟩
      cases i with
      | zero => exact ⟨bs, by simpa using hb, by simp⟩
      | succ i =>
        obtain ⟨bs', h1, h2⟩ := ih i (by omega)
        refine ⟨bs', ?_, by simpa using h2⟩
        rw [show a + (i + 1) * unitBytes w = a + unitBytes w + i * unitBytes w by ring]
        exact h1
    · cases h

/-- The read of `n` units succeeds when each of them can be read. -/
theorem memReadUnits_isSome (P : Params) (m : Memory) (w : UnitWidth) :
    ∀ (n a : Nat), (∀ i, i < n → (memReadBytes P m (a + i * unitBytes w) (unitBytes w)).isSome) →
      (memReadUnits P m w a n).isSome
  | 0, a, _ => rfl
  | n + 1, a, h => by
    obtain ⟨bs, hb⟩ := Option.isSome_iff_exists.mp (h 0 (by omega))
    obtain ⟨us, hus⟩ := Option.isSome_iff_exists.mp
      (memReadUnits_isSome P m w n (a + unitBytes w) fun i hi => by
        have := h (i + 1) (by omega)
        rwa [show a + (i + 1) * unitBytes w = a + unitBytes w + i * unitBytes w by ring] at this)
    simp only [Nat.zero_mul, Nat.add_zero] at hb
    simp [memReadUnits, hb, hus]

/-- Byte `j` of a unit holds bits [8j+7:8j]. -/
theorem littleEndian_byte :
    ∀ (bs : List Byte) (j : Nat) (b : Byte), j < 8 → bs[j]? = some b →
      (littleEndian bs).extractLsb' (8 * j) 8 = b
  | [], j, b, _, h => by simp at h
  | c :: bs, 0, b, _, h => by
    obtain rfl : c = b := by simpa using h
    ext i hi
    have h8 : i < 8 := hi
    simp [littleEndian, BitVec.getElem_extractLsb', BitVec.getLsbD_shiftLeft,
      BitVec.getLsbD_setWidth, h8]
    omega
  | c :: bs, j + 1, b, hj, h => by
    have ih := littleEndian_byte bs j b (by omega) (by simpa using h)
    rw [← ih]
    ext i hi
    have h1 : 8 * (j + 1) + i < 64 := by omega
    have h2 : ¬ 8 * (j + 1) + i < 8 := by omega
    have h3 : 8 * (j + 1) + i - 8 = 8 * j + i := by omega
    have h4 : c.getLsbD (8 * (j + 1) + i) = false := BitVec.getLsbD_of_ge _ _ (by omega)
    have h5 : 8 * j + i < 64 := by omega
    simp [littleEndian, BitVec.getElem_extractLsb', h1, h2, h3, h4, BitVec.getLsbD_eq_getElem h5]

/-- The outcomes of a response to an answer. -/
theorem respond_cases (P : Params) (req : ReadRequest) (a : PortAnswer) :
    (respond P req a = .fail ∧ (a = .fail ∨ ∃ m, a = .halted m ∧
        memReadUnits P m req.width req.addr req.count = none)) ∨
      (∃ us, a = .data us ∧ respond P req a = .data (us.map (cutUnit req.width))) ∨
      ∃ m us, a = .halted m ∧ memReadUnits P m req.width req.addr req.count = some us ∧
        respond P req a = .data us := by
  cases a with
  | fail => exact .inl ⟨rfl, .inl rfl⟩
  | data us => exact .inr (.inl ⟨us, rfl, rfl⟩)
  | halted m =>
    cases h : memReadUnits P m req.width req.addr req.count with
    | none => exact .inl ⟨by simp [respond, h], .inr ⟨m, rfl, h⟩⟩
    | some us => exact .inr (.inr ⟨m, us, rfl, h, by simp [respond, h]⟩)

theorem afterRead_draws_of_cons {h : HostSide} {a : PortAnswer} {rest : List PortAnswer}
    (ha : h.answers = a :: rest) (req : ReadRequest) : (afterRead h req).draws = h.draws := by
  simp [afterRead, ha]

theorem nextAnswer_of_cons {h : HostSide} {a : PortAnswer} {rest : List PortAnswer}
    (ha : h.answers = a :: rest) (req : ReadRequest) : nextAnswer h req = a := by
  simp [nextAnswer, ha]

/-- One read of an answer the host has decided: it is used up, and the request is on record. -/
theorem afterRead_of_cons {h : HostSide} {a : PortAnswer} {rest : List PortAnswer}
    (ha : h.answers = a :: rest) (req : ReadRequest) :
    afterRead h req = { h with answers := rest, requests := h.requests ++ [req] } := by
  simp [afterRead, ha]

/-- Memories in canonical form stay so over a read: nothing writes one (R69). -/
theorem afterRead_keeps_memories {P : Params} {h : HostSide}
    (H : ∀ m, PortAnswer.halted m ∈ h.answers → Memory.wf P m = true) (req : ReadRequest) :
    ∀ m, PortAnswer.halted m ∈ (afterRead h req).answers → Memory.wf P m = true :=
  fun m hm => H m (List.mem_of_mem_tail hm)

/-- Cutting a unit to eight bits does not change its byte. -/
theorem setWidth_cutUnit_bits8 (u : Quad) : (cutUnit .bits8 u).setWidth 8 = u.setWidth 8 := by
  ext i hi
  simp [cutUnit]

end Sys2Proof.Machine
end

