-- ==== Sys2Proof/Laws/Commands.lean ====
section
/-! SUPPORT. What the shared operations of the commands can do, said once: the ends of a TICK, of a
LOCK and of an OUT_RD. -/

namespace Sys2Proof.Machine

/-- The three ends of a TICK in RUN, from the response on (R190). -/
theorem takeResponse_cases (P : Params) (resp : PortResponse) (s : State) :
    (resp = .fail ∧ takeResponse P resp s = failCmd .readFailure { s with lastLen := 0 }) ∨
      (∃ us, resp = .data us ∧ us.length ≠ expectedUnits s.cfg ∧
        takeResponse P resp s =
          failCmd .frameSizeMismatch { s with lastLen := saturate32 us.length }) ∨
      ∃ us, resp = .data us ∧ us.length = expectedUnits s.cfg ∧
        takeResponse P resp s = okCmd 0
          { s with lastLen := saturate32 us.length, out := decodeFrame P s.cfg us, outValid := true } := by
  cases resp with
  | fail => exact .inl ⟨rfl, rfl⟩
  | data us =>
    by_cases h : us.length = expectedUnits s.cfg
    · exact .inr (.inr ⟨us, rfl, h, by simp [takeResponse, lengthOK, h]⟩)
    · exact .inr (.inl ⟨us, rfl, h, by simp [takeResponse, lengthOK, h]⟩)

/-- The two ends of a LOCK in CONFIG (R186). -/
theorem lockCfg_cases (P : Params) (s : State) :
    (firstFailingCheck P s.cfg = 0 ∧ lockCfg P s = okCmd 0 { s with lockReason := 0, mode := .run }) ∨
      (firstFailingCheck P s.cfg ≠ 0 ∧
        lockCfg P s = failCmd .unsupportedFormat
          { s with lockReason := firstFailingCheck P s.cfg, mode := .fatal }) := by
  by_cases h : firstFailingCheck P s.cfg = 0
  · exact .inl ⟨h, by simp only [lockCfg, h, if_true]⟩
  · exact .inr ⟨h, by simp only [lockCfg, if_neg h]⟩

/-- The three ends of an OUT_RD (R192). -/
theorem readPixel_cases (x y : Nat) (s : State) :
    (s.outValid = false ∧ readPixel x y s = failCmd .outEmpty s) ∨
      (s.outValid = true ∧ (widthOf s.cfg ≤ x ∨ heightOf s.cfg ≤ y) ∧
        readPixel x y s = failCmd .outRange s) ∨
      (s.outValid = true ∧ x < widthOf s.cfg ∧ y < heightOf s.cfg ∧
        readPixel x y s = okCmd ((pixelAt s x y).setWidth 32) s) := by
  unfold readPixel
  cases hv : s.outValid with
  | false => simp
  | true =>
    by_cases h : widthOf s.cfg ≤ x ∨ heightOf s.cfg ≤ y
    · simp [h]
    · rw [if_neg (by simp), if_neg h]
      exact .inr (.inr ⟨rfl, by omega, by omega, rfl⟩)

/-- What LOCK has accepted (R186). -/
theorem firstFailingCheck_eq_zero {P : Params} {c : CfgRegs} (h : firstFailingCheck P c = 0) :
    widthOf c ≠ 0 ∧ heightOf c ≠ 0 ∧ fmtOf c ≠ .reserved ∧
      (fmtOf c = .mono1bpp → heightOf c % 8 = 0) ∧ (fmtOf c = .rgb565quad64 → widthOf c % 4 = 0) ∧
      fpsOf c ≠ 0 ∧ widthOf c * heightOf c ≤ P.maxPixels ∧ rangeOK P c = true := by
  unfold firstFailingCheck at h
  split at h
  · simp at h
  split at h
  · simp at h
  split at h
  · simp at h
  split at h
  · simp at h
  split at h
  · simp at h
  split at h
  · simp at h
  split at h
  · simp at h
  split at h
  · simp at h
  rename_i h1 h2 h3 h4 h5 h6 h7 h8
  refine ⟨h1, h2, h3, fun hf => ?_, fun hf => ?_, h6, ?_, by simpa using h8⟩
  · by_contra hm; exact h4 ⟨hf, hm⟩
  · by_contra hm; exact h5 ⟨hf, hm⟩
  · rw [overCapacity_iff] at h7; omega

/-! ### One equation per command -/

theorem exec_tick_of_run {s : State} (h : s.mode = .run) :
    exec .tick s = .next (fetchFrame Config.params s) := by
  simp [exec, execTick, inMode_of_eq h]

theorem exec_lock_of_config {s : State} (h : s.mode = .config) :
    exec .lock s = .next (lockCfg Config.params s) := by
  simp [exec, execLock, inMode_of_eq h]

theorem exec_cfgWr_of_config {s : State} (h : s.mode = .config) {idx : BitVec 8} {r : CfgReg}
    (hr : cfgRegOfIdx idx = some r) (v : Word) :
    exec (.cfgWr idx v) s = .next (okCmd 0 { s with cfg := cfgWrite Config.params s.cfg r v }) := by
  simp [exec, execCfgWr, hr, inMode_of_eq h]

/-- The response a TICK works on, when the host has decided its answer. -/
theorem fetchFrame_of_cons {s : State} {a : PortAnswer} {rest : List PortAnswer}
    (ha : s.host.answers = a :: rest) (P : Params) :
    fetchFrame P s = takeResponse P (respond P (readRequest P s.cfg) a)
      { s with host := { s.host with
          answers := rest, requests := s.host.requests ++ [readRequest P s.cfg] } } := by
  simp only [fetchFrame, nextAnswer_of_cons ha, afterRead_of_cons ha]

/-- A TICK in RUN that receives a frame of the expected length. -/
theorem exec_tick_frame {s : State} {us : RawFrame} (hm : s.mode = .run)
    (hr : respond Config.params (readRequest Config.params s.cfg)
      (nextAnswer s.host (readRequest Config.params s.cfg)) = .data us)
    (hl : us.length = expectedUnits s.cfg) :
    exec .tick s = .next { s with
      out := decodeFrame Config.params s.cfg us, outValid := true, lastErr := .none
      lastLen := saturate32 us.length
      host := { afterRead s.host (readRequest Config.params s.cfg) with
        results := s.host.results ++ [0] } } := by
  rw [exec_tick_of_run hm, fetchFrame, hr]
  simp only [takeResponse, lengthOK, hl, decide_true, if_true]
  rfl

/-- A TICK in RUN that receives a frame of another length. -/
theorem exec_tick_mismatch {s : State} {us : RawFrame} (hm : s.mode = .run)
    (hr : respond Config.params (readRequest Config.params s.cfg)
      (nextAnswer s.host (readRequest Config.params s.cfg)) = .data us)
    (hl : us.length ≠ expectedUnits s.cfg) :
    exec .tick s = .next { s with
      lastErr := .frameSizeMismatch, lastLen := saturate32 us.length
      host := { afterRead s.host (readRequest Config.params s.cfg) with
        results := s.host.results ++ [0] } } := by
  rw [exec_tick_of_run hm, fetchFrame, hr]
  simp only [takeResponse, lengthOK, hl, decide_false, Bool.false_eq_true, if_false]
  rfl

/-- A TICK in RUN that receives no frame. -/
theorem exec_tick_fail {s : State} (hm : s.mode = .run)
    (hr : respond Config.params (readRequest Config.params s.cfg)
      (nextAnswer s.host (readRequest Config.params s.cfg)) = .fail) :
    exec .tick s = .next { s with
      lastErr := .readFailure, lastLen := 0
      host := { afterRead s.host (readRequest Config.params s.cfg) with
        results := s.host.results ++ [0] } } := by
  rw [exec_tick_of_run hm, fetchFrame, hr]
  rfl

/-- A TICK in RUN whose decided answer delivers a frame of the expected length. -/
theorem exec_tick_of_frame {s : State} {a : PortAnswer} {rest : List PortAnswer} {us : RawFrame}
    (hm : s.mode = .run) (ha : s.host.answers = a :: rest)
    (hr : respond Config.params (readRequest Config.params s.cfg) a = .data us)
    (hl : us.length = expectedUnits s.cfg) :
    exec .tick s = .next { s with
      out := decodeFrame Config.params s.cfg us, outValid := true, lastErr := .none
      lastLen := saturate32 us.length
      host := { s.host with
        answers := rest
        requests := s.host.requests ++ [readRequest Config.params s.cfg]
        results := s.host.results ++ [0] } } := by
  rw [exec_tick_frame hm (by rw [nextAnswer_of_cons ha]; exact hr) hl, afterRead_of_cons ha]

/-- A TICK in RUN whose decided answer is no frame. -/
theorem exec_tick_of_fail {s : State} {a : PortAnswer} {rest : List PortAnswer}
    (hm : s.mode = .run) (ha : s.host.answers = a :: rest)
    (hr : respond Config.params (readRequest Config.params s.cfg) a = .fail) :
    exec .tick s = .next { s with
      lastErr := .readFailure, lastLen := 0
      host := { s.host with
        answers := rest
        requests := s.host.requests ++ [readRequest Config.params s.cfg]
        results := s.host.results ++ [0] } } := by
  rw [exec_tick_fail hm (by rw [nextAnswer_of_cons ha]; exact hr), afterRead_of_cons ha]

/-! ### The host is no state of the block (R40) -/

/-- What a TICK makes of a response depends on the block alone. -/
theorem takeResponse_of_toBlock_eq {s s' : State} (hb : s.toBlock = s'.toBlock) (P : Params)
    (resp : PortResponse) : (takeResponse P resp s).toBlock = (takeResponse P resp s').toBlock := by
  obtain ⟨b, h⟩ := s
  obtain ⟨b', h'⟩ := s'
  obtain rfl : b = b' := hb
  cases resp with
  | fail => rfl
  | data us =>
    simp only [takeResponse]
    split <;> rfl

/-- A TICK in RUN answers RESULT 0, however it ends (R78). -/
theorem takeResponse_results (P : Params) (resp : PortResponse) (s : State) :
    (takeResponse P resp s).host.results = s.host.results ++ [0] := by
  rcases takeResponse_cases P resp s with ⟨_, h⟩ | ⟨_, _, _, h⟩ | ⟨_, _, _, h⟩ <;> rw [h] <;> rfl

/-- A command is a function of the block and, for a TICK in RUN, of the response to its one request: two
hosts that give that response see the same block after it, and the same RESULT. -/
theorem exec_of_toBlock_eq {s s' : State} (hb : s.toBlock = s'.toBlock) (i : Instr)
    (hr : i = .tick → s.mode = .run →
      respond Config.params (readRequest Config.params s.cfg)
          (nextAnswer s.host (readRequest Config.params s.cfg)) =
        respond Config.params (readRequest Config.params s.cfg)
          (nextAnswer s'.host (readRequest Config.params s.cfg))) :
    ∃ t t' res, exec i s = .next t ∧ exec i s' = .next t' ∧ t.toBlock = t'.toBlock ∧
      t.host.results = s.host.results ++ [res] ∧ t'.host.results = s'.host.results ++ [res] := by
  obtain ⟨b, h⟩ := s
  obtain ⟨b', h'⟩ := s'
  obtain rfl : b = b' := hb
  cases i with
  | nop => exact ⟨_, _, 0, rfl, rfl, rfl, rfl, rfl⟩
  | cfgWr idx v =>
    simp only [exec, execCfgWr]
    cases cfgRegOfIdx idx with
    | none => exact ⟨_, _, 0, rfl, rfl, rfl, rfl, rfl⟩
    | some r =>
      refine ⟨_, _, 0, rfl, rfl, ?_⟩
      simp only [inMode]
      split <;> exact ⟨rfl, rfl, rfl⟩
  | cfgRd idx =>
    simp only [exec, execCfgRd]
    cases cfgRegOfIdx idx with
    | none => exact ⟨_, _, 0, rfl, rfl, rfl, rfl, rfl⟩
    | some r => exact ⟨_, _, _, rfl, rfl, rfl, rfl, rfl⟩
  | lock =>
    refine ⟨_, _, 0, rfl, rfl, ?_⟩
    simp only [inMode, lockCfg]
    split
    · split <;> exact ⟨rfl, rfl, rfl⟩
    · exact ⟨rfl, rfl, rfl⟩
  | tick =>
    refine ⟨_, _, 0, rfl, rfl, ?_⟩
    by_cases hm : b.mode = .run
    · have hr := hr rfl hm
      simp only [inMode, hm, if_true, fetchFrame] at hr ⊢
      rw [hr]
      refine ⟨takeResponse_of_toBlock_eq ?_ _ _, takeResponse_results _ _ _,
        takeResponse_results _ _ _⟩
      rfl
    · simp [inMode, hm]
  | outRd x y =>
    simp only [exec, execOutRd, readPixel]
    split
    · exact ⟨_, _, 0, rfl, rfl, rfl, rfl, rfl⟩
    · split
      · exact ⟨_, _, 0, rfl, rfl, rfl, rfl, rfl⟩
      · exact ⟨_, _, _, rfl, rfl, rfl, rfl, rfl⟩
  | statRd idx =>
    simp only [exec, execStatRd]
    cases statRegOfIdx idx with
    | none => exact ⟨_, _, 0, rfl, rfl, rfl, rfl, rfl⟩
    | some r => cases r <;> exact ⟨_, _, _, rfl, rfl, rfl, rfl, rfl⟩

end Sys2Proof.Machine
end

