-- ==== Sys2Proof/Laws/Decode.lean ====
section
/-! SUPPORT. The fields of a command word and of its encoding. -/

namespace Sys2Proof

theorem fieldOp_toNat (cmd : Word) : (fieldOp cmd).toNat = cmd.toNat % 16 := by
  simp [fieldOp]

theorem fieldIdx_toNat (cmd : Word) : (fieldIdx cmd).toNat = cmd.toNat / 16 % 256 := by
  simp [fieldIdx, Nat.shiftRight_eq_div_pow]

theorem fieldRsvd_toNat (cmd : Word) : (fieldRsvd cmd).toNat = cmd.toNat / 4096 := by
  have := cmd.isLt
  simp [fieldRsvd, Nat.shiftRight_eq_div_pow]
  omega

/-- A command word is its three fields (R71). -/
theorem cmd_eq_fields (cmd : Word) : cmd = fieldRsvd cmd ++ fieldIdx cmd ++ fieldOp cmd := by
  apply BitVec.eq_of_toNat_eq
  have h := cmd.isLt
  simp only [BitVec.toNat_append, fieldOp_toNat, fieldIdx_toNat, fieldRsvd_toNat]
  rw [← Nat.shiftLeft_add_eq_or_of_lt (by omega), ← Nat.shiftLeft_add_eq_or_of_lt (by omega),
    Nat.shiftLeft_eq, Nat.shiftLeft_eq]
  omega

/-- The command word of an encoding as a number (R71, R81). -/
theorem encode_cmd_toNat (i : Instr) :
    (encode i).cmd.toNat = (idxOf i).toNat * 16 + (opOf i).toNat := by
  have h := (opOf i).isLt
  change ((0 : BitVec 20) ++ idxOf i ++ opOf i : BitVec (20 + 8 + 4)).toNat = _
  simp only [BitVec.toNat_append]
  rw [← Nat.shiftLeft_add_eq_or_of_lt h, ← Nat.shiftLeft_add_eq_or_of_lt (idxOf i).isLt,
    Nat.shiftLeft_eq, Nat.shiftLeft_eq]
  simp

@[simp] theorem fieldOp_encode (i : Instr) : fieldOp (encode i).cmd = opOf i := by
  apply BitVec.eq_of_toNat_eq
  have h := (opOf i).isLt
  rw [fieldOp_toNat, encode_cmd_toNat]
  omega

@[simp] theorem fieldIdx_encode (i : Instr) : fieldIdx (encode i).cmd = idxOf i := by
  apply BitVec.eq_of_toNat_eq
  have h := (opOf i).isLt
  have h' := (idxOf i).isLt
  rw [fieldIdx_toNat, encode_cmd_toNat]
  omega

@[simp] theorem fieldRsvd_encode (i : Instr) : fieldRsvd (encode i).cmd = 0 := by
  apply BitVec.eq_of_toNat_eq
  have h := (opOf i).isLt
  have h' := (idxOf i).isLt
  rw [fieldRsvd_toNat, encode_cmd_toNat]
  simp
  omega

/-- What a word must be for the decoder to answer a command. -/
theorem decode_eq_ok_iff (t : Transaction) (i : Instr) :
    decode t = .ok i ↔ fieldRsvd t.cmd = 0 ∧ instrOfOp (fieldOp t.cmd) (fieldIdx t.cmd) t.data = some i ∧
      idxLegal (fieldOp t.cmd) (fieldIdx t.cmd) = true := by
  unfold decode
  by_cases h : fieldRsvd t.cmd = 0
  · rw [if_neg (by simpa using h)]
    cases h2 : instrOfOp (fieldOp t.cmd) (fieldIdx t.cmd) t.data with
    | none => simp
    | some j =>
      by_cases h3 : idxLegal (fieldOp t.cmd) (fieldIdx t.cmd) = true <;> simp [h, h3]
  · rw [if_pos h]
    exact iff_of_false (by simp) fun hf => h hf.1

/-- The command a decoded word stands for has the OP of the word. -/
theorem opOf_of_instrOfOp {op : BitVec 4} {idx : BitVec 8} {data : Word} {i : Instr}
    (h : instrOfOp op idx data = some i) : opOf i = op := by
  unfold instrOfOp at h
  apply BitVec.eq_of_toNat_eq
  split at h <;> simp_all <;> subst h <;> rfl

theorem instrOfOp_eq_none_iff (op : BitVec 4) (idx : BitVec 8) (data : Word) :
    instrOfOp op idx data = none ↔ 6 < op.toNat := by
  unfold instrOfOp
  split <;> simp_all
  have := op.isLt
  omega

end Sys2Proof
end

