-- ==== Sys2Proof/Laws/Grid.lean ====
section
/-! SUPPORT. The row-major grid: what `gridOf` holds at a pixel, and that the cells of two pixels are
two cells. -/

namespace Sys2Proof.Machine

theorem cellIndex_lt {w h x y : Nat} (hx : x < w) (hy : y < h) : cellIndex w x y < w * h := by
  unfold cellIndex
  calc x + y * w < w + y * w := by omega
    _ = (y + 1) * w := by ring
    _ ≤ h * w := Nat.mul_le_mul_right _ hy
    _ = w * h := Nat.mul_comm _ _

theorem cellIndex_inj {w x y x' y' : Nat} (hx : x < w) (hx' : x' < w) :
    cellIndex w x y = cellIndex w x' y' ↔ x = x' ∧ y = y' := by
  unfold cellIndex
  constructor
  · intro h
    have hw : 0 < w := by omega
    have h1 : (x + y * w) % w = (x' + y' * w) % w := by rw [h]
    have h2 : (x + y * w) / w = (x' + y' * w) / w := by rw [h]
    rw [Nat.add_mul_mod_self_right, Nat.add_mul_mod_self_right, Nat.mod_eq_of_lt hx,
      Nat.mod_eq_of_lt hx'] at h1
    rw [Nat.add_mul_div_right _ _ hw, Nat.add_mul_div_right _ _ hw, Nat.div_eq_of_lt hx,
      Nat.div_eq_of_lt hx'] at h2
    omega
  · rintro ⟨rfl, rfl⟩; rfl

/-- Every cell is the cell of one pixel. -/
theorem cellIndex_mod_div (w k : Nat) : cellIndex w (k % w) (k / w) = k := by
  unfold cellIndex
  rw [Nat.mul_comm]
  exact Nat.mod_add_div k w

/-- An entry of a list of blocks of one length. -/
theorem getElem?_flatMap_block {α β : Type} (f : α → List β) (w : Nat) :
    ∀ (l : List α) (i j : Nat) (a : α), (∀ a ∈ l, (f a).length = w) → j < w → l[i]? = some a →
      (l.flatMap f)[j + i * w]? = (f a)[j]?
  | [], _, _, _, _, _, hi => by simp at hi
  | b :: l, 0, j, a, hl, hj, hi => by
    obtain rfl : b = a := by simpa using hi
    have hb : (f b).length = w := hl b (by simp)
    simp [List.flatMap_cons, List.getElem?_append, hb, hj]
  | b :: l, i + 1, j, a, hl, hj, hi => by
    have hb : (f b).length = w := hl b (by simp)
    have ih := getElem?_flatMap_block f w l i j a (fun x hx => hl x (by simp [hx])) hj
      (by simpa using hi)
    have h1 : ¬ j + (i + 1) * w < w := by
      have : w ≤ (i + 1) * w := Nat.le_mul_of_pos_left w (by omega)
      omega
    have h2 : j + (i + 1) * w - w = j + i * w := by
      have : (i + 1) * w = i * w + w := by ring
      omega
    simp only [List.flatMap_cons, List.getElem?_append, hb, h1, if_false, h2, ih]

theorem length_rasterOrder (w h : Nat) : (rasterOrder w h).length = w * h := by
  simp [rasterOrder, Nat.mul_comm]

theorem rasterOrder_getElem? {w h x y : Nat} (hx : x < w) (hy : y < h) :
    (rasterOrder w h)[cellIndex w x y]? = some (x, y) := by
  unfold rasterOrder cellIndex
  rw [getElem?_flatMap_block _ w _ y x y (by simp) hx (by simp [hy])]
  simp [hx]

@[simp] theorem length_gridOf (w h : Nat) (f : Nat → Nat → Colour) :
    (gridOf w h f).length = w * h := by
  simp [gridOf, length_rasterOrder]

/-- `gridOf` holds `f x y` at the cell of `(x, y)`. -/
theorem gridOf_getElem? {w h x y : Nat} (f : Nat → Nat → Colour) (hx : x < w) (hy : y < h) :
    (gridOf w h f)[cellIndex w x y]? = some (f x y) := by
  simp [gridOf, rasterOrder_getElem? hx hy]

/-- Two grids of one size that agree at every pixel are one grid. -/
theorem grid_ext {w h : Nat} {g g' : Grid} (hg : g.length = w * h) (hg' : g'.length = w * h)
    (H : ∀ x y, x < w → y < h → g[cellIndex w x y]? = g'[cellIndex w x y]?) : g = g' := by
  apply List.ext_getElem?
  intro k
  by_cases hk : k < w * h
  · have hw : 0 < w := Nat.pos_of_ne_zero (by rintro rfl; simp at hk)
    have := H (k % w) (k / w) (Nat.mod_lt _ hw) (Nat.div_lt_of_lt_mul hk)
    rwa [cellIndex_mod_div] at this
  · rw [List.getElem?_eq_none (by omega), List.getElem?_eq_none (by omega)]

/-- The unit of a frame that is long enough. -/
theorem unitAt_of_getElem? {u : RawFrame} {i : Nat} {v : Quad} (h : u[i]? = some v) :
    unitAt u i = v := by
  simp [unitAt, List.getD, h]

end Sys2Proof.Machine
end

