-- ==== Sys2Proof/Laws/PerInstr.lean ====
section
/-! SUPPORT. Facts about each command as syntax, one lemma per constructor of `Instr`. -/

/-- The words of a command (30_encoding.md R71, R72, R81): OP is at most 6, RSVD is 0, and IDX is legal
for OP exactly when the command is well-formed. -/
def Sys2Proof.Laws.EncodingShape.Statement (i : Sys2Proof.Instr) : Prop :=
  (Sys2Proof.fieldOp (Sys2Proof.encode i).cmd).toNat ≤ 6 ∧
    Sys2Proof.fieldRsvd (Sys2Proof.encode i).cmd = 0 ∧
    Sys2Proof.idxLegal (Sys2Proof.fieldOp (Sys2Proof.encode i).cmd)
      (Sys2Proof.fieldIdx (Sys2Proof.encode i).cmd) = i.wf

theorem Sys2Proof.Laws.EncodingShape.nop :
    Sys2Proof.Laws.EncodingShape.Statement .nop := by
  refine ⟨?_, ?_, ?_⟩ <;> decide

theorem Sys2Proof.Laws.EncodingShape.cfgWr (idx : BitVec 8) (value : Sys2Proof.Word) :
    Sys2Proof.Laws.EncodingShape.Statement (.cfgWr idx value) := by
  refine ⟨?_, Sys2Proof.fieldRsvd_encode _, ?_⟩
  · rw [Sys2Proof.fieldOp_encode]; exact (by decide : (0x1 : BitVec 4).toNat ≤ 6)
  · rw [Sys2Proof.fieldOp_encode, Sys2Proof.fieldIdx_encode]; rfl

theorem Sys2Proof.Laws.EncodingShape.cfgRd (idx : BitVec 8) :
    Sys2Proof.Laws.EncodingShape.Statement (.cfgRd idx) := by
  refine ⟨?_, Sys2Proof.fieldRsvd_encode _, ?_⟩
  · rw [Sys2Proof.fieldOp_encode]; exact (by decide : (0x2 : BitVec 4).toNat ≤ 6)
  · rw [Sys2Proof.fieldOp_encode, Sys2Proof.fieldIdx_encode]; rfl

theorem Sys2Proof.Laws.EncodingShape.lock :
    Sys2Proof.Laws.EncodingShape.Statement .lock := by
  refine ⟨?_, ?_, ?_⟩ <;> decide

theorem Sys2Proof.Laws.EncodingShape.tick :
    Sys2Proof.Laws.EncodingShape.Statement .tick := by
  refine ⟨?_, ?_, ?_⟩ <;> decide

theorem Sys2Proof.Laws.EncodingShape.outRd (x y : Sys2Proof.Halfword) :
    Sys2Proof.Laws.EncodingShape.Statement (.outRd x y) := by
  refine ⟨?_, Sys2Proof.fieldRsvd_encode _, ?_⟩
  · rw [Sys2Proof.fieldOp_encode]; exact (by decide : (0x5 : BitVec 4).toNat ≤ 6)
  · rw [Sys2Proof.fieldOp_encode, Sys2Proof.fieldIdx_encode]; rfl

theorem Sys2Proof.Laws.EncodingShape.statRd (idx : BitVec 8) :
    Sys2Proof.Laws.EncodingShape.Statement (.statRd idx) := by
  refine ⟨?_, Sys2Proof.fieldRsvd_encode _, ?_⟩
  · rw [Sys2Proof.fieldOp_encode]; exact (by decide : (0x6 : BitVec 4).toNat ≤ 6)
  · rw [Sys2Proof.fieldOp_encode, Sys2Proof.fieldIdx_encode]; rfl
end

