-- ==== Sys2Proof/Laws/Step.lean ====
section
/-! SUPPORT. What one step can do, said once, and runs step by step. -/

namespace Sys2Proof.Machine

/-- If a step answers a next state, the block was idle, or was reset, or turned an illegal word away,
or ran the command it decoded. -/
theorem step_cases {s t : State} (h : step s = .next t) :
    (s.host.events = [] ∧ t = s) ∨
      (∃ rest, s.host.events = .reset :: rest ∧ t = applyReset (popEvent s)) ∨
      (∃ tr rest e, s.host.events = .command tr :: rest ∧ decode tr = .error e ∧
        t = failCmd .cmdIllegal (popEvent s)) ∨
      ∃ tr rest i, s.host.events = .command tr :: rest ∧ decode tr = .ok i ∧
        exec i (popEvent s) = .next t := by
  cases he : s.host.events with
  | nil => simp [step, nextEvent, he] at h; exact .inl ⟨rfl, h.symm⟩
  | cons ev rest =>
    cases ev with
    | reset => simp [step, nextEvent, he] at h; exact .inr (.inl ⟨rest, rfl, h.symm⟩)
    | command tr =>
      cases hd : decode tr with
      | error e =>
        simp [step, nextEvent, he, hd] at h
        exact .inr (.inr (.inl ⟨tr, rest, e, rfl, hd, h.symm⟩))
      | ok i =>
        simp [step, nextEvent, he, hd] at h
        exact .inr (.inr (.inr ⟨tr, rest, i, rfl, hd, h⟩))

/-- A run of no step. -/
theorem run_zero (s : State) : Sys2Proof.core.run 0 s = .next s := rfl

/-- A run that begins with a step to `t` is that run from `t` on. -/
theorem run_succ_of_next {s t : State} (h : step s = .next t) (n : Nat) :
    Sys2Proof.core.run (n + 1) s = Sys2Proof.core.run n t := by
  have hc : Sys2Proof.core.step s = .next t := h
  simp only [Host.Core.run]
  split
  · rename_i u hu
    obtain rfl : t = u := Host.Outcome.next.inj (hc.symm.trans hu)
    rfl
  · rename_i r hr
    exact absurd (hc.symm.trans hr) (by simp)
  · rename_i r hr
    exact absurd (hc.symm.trans hr) (by simp)

end Sys2Proof.Machine
end

