-- ==== Sys2Proof/Tests/Slice0.lean ====
section
/-! SUPPORT. Tests on fixed values, and for each statement of
Certificates/Slice0/Obligations.lean that has hypotheses one theorem that meets them.

The expected values of the tests are those of 95_test_vectors.md, named by their ids there. -/

namespace Sys2Proof.Tests

open Sys2Proof Sys2Proof.Machine

/-! ### Helpers -/

/-- A field of the next state of an outcome. -/
def nextField {α : Type} (f : State → α) : Host.Outcome State Fault Refusal → Option α
  | .next t => some (f t)
  | .fault _ => none
  | .refused _ => none

/-- The parameters of 95_test_vectors.md Part 3: `ADDR_BITS` 32, `MAX_PIXELS` 8192. -/
def vectorParams : Params := ⟨32, 0, .lastWins⟩

/-- The configuration of a frame, all other registers at their reset values. -/
def frameCfg (w h fmt : Word) : CfgRegs := { CfgRegs.reset with width := w, height := h, format := fmt }

/-- The block in RUN with a configuration, and the answers the host has decided for it. -/
def running (c : CfgRegs) (answers : List PortAnswer) : State :=
  { State.reset with cfg := c, mode := .run, host := { HostSide.idle with answers := answers } }

/-- A state with one transaction pending. -/
def issuing (s : State) (cmd data : Word) : State :=
  { s with host := { s.host with events := [.command ⟨cmd, data⟩] } }

/-- A state with a reset pending. -/
def resetting (s : State) : State := { s with host := { s.host with events := [.reset] } }

/-- The block in FATAL after a LOCK that found check 4 to fail (program P3). -/
def rejected : State :=
  { State.reset with cfg := frameCfg 128 12 0, mode := .fatal, lockReason := 4 }

/-- A 4 × 8 Mono1bpp block in RUN that shows a frame of background. -/
def showing : State :=
  { running (frameCfg 4 8 0) [] with out := List.replicate 32 0, outValid := true, lastLen := 4 }

/-- Target memory whose bytes at 0 to 7 are those of G33. -/
def g33Memory : Memory :=
  ⟨[(0, 0x00), (1, 0x00), (2, 0x00), (3, 0xF8), (4, 0xE0), (5, 0x07), (6, 0x1F), (7, 0x00)]⟩

/-- Every check before `k` passes and check `k` fails. -/
def FirstFails (P : Params) (c : CfgRegs) (k : Nat) : Prop :=
  CheckFails P c k ∧ ∀ j < k, ¬ CheckFails P c j

/-- A configuration in which no check fails, from the number LOCK computes. -/
theorem passes_of_zero {P : Params} {c : CfgRegs} (h : firstFailingCheck P c = 0) (k : Nat) :
    ¬ CheckFails P c k := by
  obtain ⟨h1, h2, h3, h4, h5, h6, h7, h8⟩ := firstFailingCheck_eq_zero h
  intro hk
  unfold CheckFails at hk
  split at hk
  · exact h1 hk
  · exact h2 hk
  · exact h3 hk
  · exact hk.2 (h4 hk.1)
  · exact hk.2 (h5 hk.1)
  · exact h6 hk
  · omega
  · have := of_decide_eq_true h8; omega
  · exact hk

/-! ### Well-formedness refuses an illegal IDX -/

theorem test_wf_cfgWr : (Instr.cfgWr 8 0).wf = false := by decide
theorem test_wf_cfgRd : (Instr.cfgRd 8).wf = false := by decide
theorem test_wf_statRd : (Instr.statRd 2).wf = false := by decide

/-! ### Decoding: the words of R72's table, and X1 to X4 and X7 -/

theorem test_decode_nop : decode ⟨0b00000000000000000000_00000000_0000, 5⟩ = .ok .nop := by decide
theorem test_decode_cfgWr : decode ⟨0b00000000000000000000_00000001_0001, 0x12345678⟩ =
    .ok (.cfgWr 1 0x12345678) := by decide
theorem test_decode_cfgRd : decode ⟨0b00000000000000000000_00000111_0010, 0⟩ = .ok (.cfgRd 7) := by
  decide
theorem test_decode_lock : decode ⟨0b00000000000000000000_00000000_0011, 0⟩ = .ok .lock := by decide
theorem test_decode_tick : decode ⟨0b00000000000000000000_00000000_0100, 0⟩ = .ok .tick := by decide
theorem test_decode_outRd : decode ⟨0b00000000000000000000_00000000_0101, 0x00010003⟩ =
    .ok (.outRd 3 1) := by decide
theorem test_decode_statRd : decode ⟨0b00000000000000000000_00000001_0110, 0⟩ = .ok (.statRd 1) := by
  decide
theorem test_decode_rejects_rsvd : decode ⟨0x00001004, 0⟩ = .error .reservedBits ∧
    decode ⟨0x80000000, 0⟩ = .error .reservedBits := by decide
theorem test_decode_rejects_op : decode ⟨0x00000007, 0⟩ = .error .reservedOp ∧
    decode ⟨0x0000000F, 0⟩ = .error .reservedOp := by decide
theorem test_decode_rejects_idx : decode ⟨0x00000026, 0⟩ = .error .illegalIdx ∧
    decode ⟨0x00000014, 0⟩ = .error .illegalIdx ∧ decode ⟨0x00000081, 0⟩ = .error .illegalIdx := by
  decide
theorem test_table_word : decodeTableWord 32 0x72 = some (.cfgRd 7) ∧
    decodeTableWord 64 0x1234567800000011 = some (.cfgWr 1 0x12345678) ∧
    decodeTableWord 32 0x7 = none := by decide
theorem test_fetch_word : step (State.reset.withFetchWord 32 3) = exec .lock State.reset := rfl

/-! ### Commands: one step each -/

theorem test_nop_clears : nextField (fun t => (t.lastErr, t.host.results))
    (exec .nop { State.reset with lastErr := .cmdIllegal }) = some (.none, [0]) := by decide

/-- X6. -/
theorem test_cfgWr_height : nextField (fun t => (t.cfg, t.lastErr))
    (exec (.cfgWr 1 0x12345678) State.reset) =
      some ({ CfgRegs.reset with height := 0x5678 }, .none) := by decide

/-- X13. -/
theorem test_cfgWr_in_run : nextField (fun t => (t.cfg, t.lastErr))
    (exec (.cfgWr 0 4) (running CfgRegs.reset [])) = some (CfgRegs.reset, .cmdState) := by decide

/-- X8. -/
theorem test_cfgRd_width : nextField (fun t => t.host.results) (exec (.cfgRd 0) State.reset) =
    some [0x80] := by decide

/-- X9. -/
theorem test_cfgRd_rowmap : nextField (fun t => t.host.results)
    (exec (.cfgRd 7) { State.reset with cfg := cfgWrite Config.params CfgRegs.reset .rowmap 0xFFFFFFFF })
      = some [1] := by decide

/-- K9. -/
theorem test_lock_reset_values : nextField (fun t => (t.mode, t.lockReason, t.lastErr))
    (exec .lock State.reset) = some (.run, 0, .none) := by decide

/-- K4. -/
theorem test_lock_rejects : nextField (fun t => (t.mode, t.lockReason, t.lastErr))
    (exec .lock { State.reset with cfg := frameCfg 128 12 0 }) =
      some (.fatal, 4, .unsupportedFormat) := by decide

/-- G32. -/
theorem test_tick_quad : nextField (fun t => (t.out, t.lastErr, t.lastLen))
    (exec .tick (running (frameCfg 4 2 2) [.data [0x001F07E0F8000000, 0xFFFF000000000000]])) =
      some ([0x000000, 0xF80000, 0x00FC00, 0x0000F8, 0, 0, 0, 0xF8FCF8], .none, 2) := by decide

/-- X16. -/
theorem test_tick_long_frame : nextField (fun t => (t.out.length, t.outValid, t.lastErr, t.lastLen))
    (exec .tick { showing with host := { HostSide.idle with answers := [.data [0, 0, 0, 0, 0]] } }) =
      some (32, true, .frameSizeMismatch, 5) := by decide

/-- X11. -/
theorem test_outRd_range : nextField (fun t => (t.lastErr, t.host.results))
    (exec (.outRd 0 8) showing) = some (.outRange, [0]) := by decide

theorem test_outRd_pixel : nextField (fun t => (t.lastErr, t.host.results))
    (exec (.outRd 3 7) { showing with out := List.replicate 31 0 ++ [0xABCDEF] }) =
      some (.none, [0x00ABCDEF]) := by decide

/-- STATUS in program P3. -/
theorem test_statRd_status : nextField (fun t => (t.lastErr, t.host.results))
    (exec (.statRd 0) { rejected with lastErr := .cmdState }) = some (.cmdState, [0x452]) := by decide

theorem test_statRd_lastLen : nextField (fun t => t.host.results) (exec (.statRd 1) showing) =
    some [4] := by decide

/-- X1: the RSVD check comes before the STATE check. -/
theorem test_step_illegal : nextField (fun t => (t.lastErr, t.host.results))
    (step (issuing State.reset 0x00001004 0)) = some (.cmdIllegal, [0]) := by decide

/-! ### The shared functions -/

/-- K1 to K3, K5 to K8 and K10. -/
theorem test_first_failing_check :
    firstFailingCheck vectorParams (frameCfg 0 64 0) = 1 ∧
    firstFailingCheck vectorParams (frameCfg 128 0 0) = 2 ∧
    firstFailingCheck vectorParams (frameCfg 128 64 3) = 3 ∧
    firstFailingCheck vectorParams (frameCfg 6 8 2) = 5 ∧
    firstFailingCheck vectorParams { CfgRegs.reset with fps := 0 } = 6 ∧
    firstFailingCheck vectorParams (frameCfg 128 72 0) = 7 ∧
    firstFailingCheck vectorParams { CfgRegs.reset with base := 0xFFFFFC01 } = 8 ∧
    firstFailingCheck vectorParams { frameCfg 0 0 3 with fps := 0 } = 1 := by decide

/-- M1 to M8. -/
theorem test_bitX : (List.range 8).map (bitX 0xA5) =
    [true, false, true, false, false, true, false, true] ∧ bitX 0x80 7 = true ∧ bitX 0x80 0 = false := by
  decide

/-- M11 to M15. -/
theorem test_scan_maps : pixelToUnit 128 5 13 = (133, 5) ∧ pixelToUnit 128 127 63 = (1023, 7) ∧
    pixelToUnit 128 0 8 = (128, 0) ∧ unitToPage 4 5 = (1, 1) ∧
    scanMapLegacy 8 ⟨3, 2, 4⟩ = (2, 28) ∧ scanMapCorrected ⟨3, 2, 4⟩ = (2, 28) ∧
    scanMapLegacy 2 ⟨1, 0, 0⟩ = (0, 2) ∧ scanMapCorrected ⟨1, 0, 0⟩ = (0, 8) ∧
    scanMapLegacy 9 ⟨8, 0, 0⟩ = (0, 72) := by decide

/-- M25 and M26, the first of the 32 scanlines. -/
theorem test_legacy_collision :
    (decodeMonoLegacy vectorParams (frameCfg 1 32 0) [0xFF, 0, 0, 0]).take 8 =
      [0xFFFFFF, 0xFFFFFF, 0xFFFFFF, 0xFFFFFF, 0, 0, 0, 0] ∧
    (decodeMonoLegacy ⟨32, 0, .or⟩ (frameCfg 1 32 0) [0xFF, 0, 0, 0]).take 9 =
      List.replicate 8 0xFFFFFF ++ [0] := by decide

/-- M32. -/
theorem test_mono_colours :
    decodeMonoCorrected { frameCfg 2 8 0 with fgColor := 0x00FF00, bgColor := 0x0000FF } [0x01, 0x80] =
      [0x00FF00] ++ List.replicate 14 0x0000FF ++ [0x00FF00] := by decide

/-- G2 to G4. -/
theorem test_unpack : unpack16 [0xF8, 0x00] 0 = 0x00F8 ∧ unpack16 [0x00, 0xF8, 0xE0, 0x07] 1 = 0x07E0 ∧
    (List.range 4).map (unpackQuad 0x0123456789ABCDEF) = [0xCDEF, 0x89AB, 0x4567, 0x0123] := by decide

/-- G10 to G16. -/
theorem test_rgb565_colours :
    [0x0000, 0xFFFF, 0x0821, 0x8410, 0x7BEF, 0x00F8, 0xCDEF].map rgb565ToColour =
      [0x000000, 0xF8FCF8, 0x080408, 0x808080, 0x787C78, 0x001CC0, 0xC8BC78] := by decide

/-- G32, row by row (R113). -/
theorem test_scanline :
    let s := { running (frameCfg 4 2 2) [] with
      out := decodeQuad (frameCfg 4 2 2) [0x001F07E0F8000000, 0xFFFF000000000000] }
    scanline s 0 = [0x000000, 0xF80000, 0x00FC00, 0x0000F8] ∧ scanline s 1 = [0, 0, 0, 0xF8FCF8] := by
  decide

/-- G30 and G31. -/
theorem test_le16_frames : decodeLE16 (frameCfg 2 1 1) [0x00, 0xF8, 0xE0, 0x07] = [0xF80000, 0x00FC00] ∧
    decodeLE16 (frameCfg 2 1 1) [0xF8, 0x00, 0x07, 0xE0] = [0x001CC0, 0xE00038] := by decide

/-- Q1 to Q4. -/
theorem test_request : expectedUnits (frameCfg 128 64 0) = 1024 ∧
    expectedUnits (frameCfg 128 64 1) = 16384 ∧ frameBytes (frameCfg 128 64 1) = 16384 ∧
    expectedUnits (frameCfg 128 64 2) = 2048 ∧ frameBytes (frameCfg 128 64 2) = 16384 ∧
    readRequest vectorParams { frameCfg 4 8 0 with base := 0x20000000 } = ⟨0x20000000, 4, .bits8⟩ := by
  decide

/-- Q5 to Q7. -/
theorem test_addresses :
    monoAddress vectorParams { CfgRegs.reset with base := 0x1000 } 5 13 = (0x1085, 5) ∧
    rgbAddressLE16 vectorParams (frameCfg 128 64 1) 5 1 = (266, 267) ∧
    rgbAddressQuad64 vectorParams (frameCfg 128 64 2) 5 1 = (264, 1) := by decide

/-- Q8 to Q10. -/
theorem test_length_and_range : [3, 4, 5, 0].map (lengthOK (frameCfg 4 8 0)) =
      [false, true, false, false] ∧
    rangeOK vectorParams { CfgRegs.reset with base := 0xFFFFFC00 } = true ∧
    rangeOK vectorParams { CfgRegs.reset with base := 0xFFFFFC01 } = false ∧
    rangeOK vectorParams { frameCfg 128 64 1 with base := 0xFFFFC000 } = true ∧
    rangeOK vectorParams { frameCfg 128 64 1 with base := 0xFFFFC001 } = false := by decide

/-- G33: the quartet of those bytes. -/
theorem test_memory_quartet :
    respond vectorParams ⟨0, 1, .bits64⟩ (.halted g33Memory) = .data [0x001F07E0F8000000] ∧
    respond vectorParams ⟨1, 1, .bits64⟩ (.halted g33Memory) = .fail := by decide

/-- Lines of programs P1 and P2, and a pseudo-instruction (R82). -/
theorem test_assembler :
    assembleWords "CFG_WR  BASE, 0x20000000 ; framebuffer".toList = some [⟨0x31, 0x20000000⟩] ∧
    assembleWords "CFG_WR FORMAT, RGB565_QUAD64".toList = some [⟨0x21, 2⟩] ∧
    assembleWords "OUT_RD 3, 1".toList = some [⟨0x5, 0x00010003⟩] ∧
    assembleWords "FRAME".toList = some [⟨0x4, 0⟩, ⟨0x6, 0⟩] := by decide

/-! ### Witnesses: concrete values that meet the hypotheses of a statement

Where a statement has several clauses, there is one conjunct per clause, at the edge of its range. -/

theorem reset_fails_no_check (k : Nat) : ¬ CheckFails Config.params CfgRegs.reset k :=
  passes_of_zero (by decide) k

theorem witness_DecodeInvertsEncode : (Instr.cfgWr 7 0xFFFFFFFF).wf = true ∧
    (Instr.cfgRd 7).wf = true ∧ (Instr.statRd 1).wf = true ∧ (Instr.outRd 0xFFFF 0xFFFF).wf = true := by
  decide

theorem witness_DecodeAcceptsExactlyWellFormedWords : WellFormedWord 0x71 ∧ WellFormedWord 0x16 ∧
    ¬ WellFormedWord 0x81 ∧ ¬ WellFormedWord 0x26 ∧ ¬ WellFormedWord 0x1000 := by
  refine ⟨?_, ?_, ?_, ?_, ?_⟩ <;> unfold WellFormedWord <;> decide

theorem witness_EncodeRecoversDecodedWord :
    decode ⟨0x71, 0xFFFFFFFF⟩ = .ok (.cfgWr 7 0xFFFFFFFF) ∧ decode ⟨0x16, 9⟩ = .ok (.statRd 1) := by
  decide

theorem witness_OutRdOperandIsTwoHalfwordsOfData :
    decode ⟨0x5, 0xFFFF0001⟩ = .ok (.outRd 0x0001 0xFFFF) := by decide

theorem witness_StepRunsDecodedInstruction :
    (issuing State.reset 0x3 0).host.events = [.command ⟨0x3, 0⟩] ∧ decode ⟨0x3, 0⟩ = .ok .lock := by
  decide

theorem witness_IllegalWordChangesOnlyLastErr :
    (issuing State.reset 0x1004 0).host.events = [.command ⟨0x1004, 0⟩] ∧ ¬ WellFormedWord 0x1004 := by
  unfold WellFormedWord; decide

theorem witness_IdleStepHoldsAllState : State.reset.host.events = [] := rfl

theorem witness_DisallowedCommandChangesOnlyLastErr :
    (Instr.lock.wf = true ∧ (running CfgRegs.reset []).mode ≠ .config) ∧
    ((Instr.cfgWr 7 0).wf = true ∧ rejected.mode ≠ .config) ∧
    (Instr.tick.wf = true ∧ State.reset.mode ≠ .run) := by decide

theorem witness_IllegalIdxFailsBeforeStateCheck : (Instr.cfgWr 8 0).wf = false ∧
    (Instr.cfgRd 255).wf = false ∧ (Instr.statRd 2).wf = false := by decide

theorem witness_CfgWrStoresDefinedField : State.reset.mode = .config := rfl

theorem witness_ReservedBitsWriteIgnoredReadZero : cfgRegOfIdx 7 = some .rowmap ∧
    State.reset.mode = .config ∧
    (0xFFFFFFFF : Word).toNat % 2 ^ fieldWidth Config.params .rowmap =
      (1 : Word).toNat % 2 ^ fieldWidth Config.params .rowmap := by decide

theorem witness_LockAcceptsValidConfiguration : State.reset.mode = .config ∧
    ∀ k, ¬ CheckFails Config.params State.reset.cfg k :=
  ⟨rfl, reset_fails_no_check⟩

theorem witness_LockRecordsFirstFailingCheck : State.reset.mode = .config ∧
    FirstFails vectorParams (frameCfg 0 64 0) 1 ∧ FirstFails vectorParams (frameCfg 128 0 0) 2 ∧
    FirstFails vectorParams (frameCfg 128 64 3) 3 ∧ FirstFails vectorParams (frameCfg 128 12 0) 4 ∧
    FirstFails vectorParams (frameCfg 6 8 2) 5 ∧
    FirstFails vectorParams { CfgRegs.reset with fps := 0 } 6 ∧
    FirstFails vectorParams (frameCfg 128 72 0) 7 ∧
    FirstFails vectorParams { CfgRegs.reset with base := 0xFFFFFC01 } 8 := by
  refine ⟨rfl, ?_, ?_, ?_, ?_, ?_, ?_, ?_, ?_⟩ <;>
    refine ⟨by simp only [CheckFails]; decide, fun j hj => ?_⟩ <;> interval_cases j <;>
    simp only [CheckFails] <;> decide

theorem witness_ResetConfigurationLocks : 10 ≤ (⟨10, 0, .lastWins⟩ : Params).addrBits := by decide

theorem witness_AcceptedFrameNeverWraps :
    (∀ k, ¬ CheckFails vectorParams { CfgRegs.reset with base := 0xFFFFFC00 } k) ∧
    1023 < expectedUnits { CfgRegs.reset with base := 0xFFFFFC00 } :=
  ⟨passes_of_zero (by decide), by decide⟩

theorem witness_RangeCheckHasNoWrapAround :
    (∀ k < 8, ¬ CheckFails vectorParams { CfgRegs.reset with base := 0xFFFFFC01 } k) ∧
    rangeOK vectorParams { CfgRegs.reset with base := 0xFFFFFC01 } = false ∧
    vectorParams.addrBits = 32 := by
  refine ⟨fun k hk => ?_, by decide, rfl⟩
  interval_cases k <;>
    simp only [CheckFails] <;> decide

theorem witness_ReadRequestGeometry :
    ((∀ k, ¬ CheckFails vectorParams (frameCfg 128 64 0) k) ∧ fmtOf (frameCfg 128 64 0) = .mono1bpp) ∧
    ((∀ k, ¬ CheckFails vectorParams (frameCfg 1 1 1) k) ∧ fmtOf (frameCfg 1 1 1) = .rgb565le16) ∧
    (∀ k, ¬ CheckFails vectorParams (frameCfg 4 1 2) k) ∧ fmtOf (frameCfg 4 1 2) = .rgb565quad64 :=
  ⟨⟨passes_of_zero (by decide), rfl⟩, ⟨passes_of_zero (by decide), rfl⟩, passes_of_zero (by decide), rfl⟩

theorem witness_TickTakesOneAnswer : (running CfgRegs.reset []).mode = .run := rfl

theorem witness_PortAssemblesUnitsLittleEndian :
    memReadUnits vectorParams g33Memory .bits64 0 1 = some [0x001F07E0F8000000] ∧
    memReadUnits vectorParams ⟨[(0xFFFFFFFF, 0x5A)]⟩ .bits8 0xFFFFFFFF 1 = some [0x5A] := by decide

/-- S8, and its edge pixel. -/
theorem witness_TickDecodesMonoCorrected :
    let s := running (frameCfg 4 8 0) [.data [1, 0, 0, 0]]
    s.mode = .run ∧ fmtOf s.cfg = .mono1bpp ∧ s.cfg.rowmap.getLsbD 0 = false ∧ heightOf s.cfg % 8 = 0 ∧
      s.host.answers = [.data [1, 0, 0, 0]] ∧
      ([1, 0, 0, 0] : List Quad).length = widthOf s.cfg * (heightOf s.cfg / 8) ∧
      3 < widthOf s.cfg ∧ 7 < heightOf s.cfg := by decide

/-- M23. -/
theorem witness_TickDecodesMonoLegacyLastWins :
    let us : List Quad := [0x01, 0, 0, 0x80, 0xFF, 0, 0, 0]
    let s := running { frameCfg 4 16 0 with rowmap := 1 } [.data us]
    s.mode = .run ∧ fmtOf s.cfg = .mono1bpp ∧ s.cfg.rowmap.getLsbD 0 = true ∧ heightOf s.cfg % 8 = 0 ∧
      s.host.answers = [.data us] ∧ us.length = widthOf s.cfg * (heightOf s.cfg / 8) ∧
      3 < widthOf s.cfg ∧ 15 < heightOf s.cfg := by decide

theorem witness_LegacyOrPaintsUnionOfPages :
    let c := frameCfg 4 16 0
    (⟨32, 0, .or⟩ : Params).collision = .or ∧ fgOf c ≠ bgOf c ∧ 3 < widthOf c ∧ 15 < heightOf c := by
  decide

/-- G30. -/
theorem witness_TickDecodesLe16 :
    let us : List Quad := [0x00, 0xF8, 0xE0, 0x07]
    let s := running (frameCfg 2 1 1) [.data us]
    s.mode = .run ∧ fmtOf s.cfg = .rgb565le16 ∧ s.host.answers = [.data us] ∧
      us.length = 2 * widthOf s.cfg * heightOf s.cfg ∧ 1 < widthOf s.cfg ∧ 0 < heightOf s.cfg := by
  decide

/-- G32. -/
theorem witness_TickDecodesQuad64 :
    let us : List Quad := [0x001F07E0F8000000, 0xFFFF000000000000]
    let s := running (frameCfg 4 2 2) [.data us]
    s.mode = .run ∧ fmtOf s.cfg = .rgb565quad64 ∧ widthOf s.cfg % 4 = 0 ∧ s.host.answers = [.data us] ∧
      us.length = widthOf s.cfg / 4 * heightOf s.cfg ∧ 3 < widthOf s.cfg ∧ 1 < heightOf s.cfg := by
  decide

/-- G33. -/
theorem witness_Rgb565PackingsDecodeSameBytes :
    let s := running (frameCfg 4 1 1) [.halted g33Memory]
    s.mode = .run ∧ widthOf s.cfg % 4 = 0 ∧ s.host.answers = [.halted g33Memory] := by decide

theorem witness_MonoPixelShowsBitAtItsAddress :
    let s := running (frameCfg 4 8 0) [.halted g33Memory]
    s.mode = .run ∧ fmtOf s.cfg = .mono1bpp ∧ s.cfg.rowmap.getLsbD 0 = false ∧ heightOf s.cfg % 8 = 0 ∧
      s.host.answers = [.halted g33Memory] ∧ exec .tick s = .next (fetchFrame Config.params s) ∧
      (fetchFrame Config.params s).lastErr = .none ∧ 3 < widthOf s.cfg ∧ 7 < heightOf s.cfg :=
  ⟨rfl, rfl, rfl, rfl, rfl, rfl, by decide, by decide, by decide⟩

theorem witness_RgbPixelShowsBytesAtItsAddress :
    let s := running (frameCfg 4 1 1) [.halted g33Memory]
    let s' := running (frameCfg 4 1 2) [.halted g33Memory]
    (s.mode = .run ∧ fmtOf s.cfg = .rgb565le16 ∧ s.host.answers = [.halted g33Memory] ∧
      exec .tick s = .next (fetchFrame Config.params s) ∧
      (fetchFrame Config.params s).lastErr = .none ∧ 3 < widthOf s.cfg ∧ 0 < heightOf s.cfg) ∧
    s'.mode = .run ∧ fmtOf s'.cfg = .rgb565quad64 ∧ widthOf s'.cfg % 4 = 0 ∧
      s'.host.answers = [.halted g33Memory] ∧ exec .tick s' = .next (fetchFrame Config.params s') ∧
      (fetchFrame Config.params s').lastErr = .none ∧ 3 < widthOf s'.cfg ∧ 0 < heightOf s'.cfg :=
  ⟨⟨rfl, rfl, rfl, rfl, by decide, by decide, by decide⟩,
    rfl, rfl, rfl, rfl, rfl, by decide, by decide, by decide⟩

/-- X16, with a frame of the right length to follow; and a frame with no unit. -/
theorem witness_FrameSizeMismatchSkipsOneTick :
    let s := running (frameCfg 4 8 0) [.data [0, 0, 0, 0, 0], .data [1, 0, 0, 0]]
    let s' := running (frameCfg 4 8 0) [.data []]
    let req := readRequest Config.params s.cfg
    (s.mode = .run ∧ respond Config.params req (nextAnswer s.host req) = .data [0, 0, 0, 0, 0] ∧
      ([0, 0, 0, 0, 0] : RawFrame).length ≠ expectedUnits s.cfg ∧
      respond Config.params req (nextAnswer (afterRead s.host req) req) = .data [1, 0, 0, 0] ∧
      ([1, 0, 0, 0] : RawFrame).length = expectedUnits s.cfg) ∧
    s'.mode = .run ∧ respond Config.params req (nextAnswer s'.host req) = .data [] ∧
      ([] : RawFrame).length ≠ expectedUnits s'.cfg := by decide

/-- X15, with a frame of the right length to follow; and a byte that the port cannot read. -/
theorem witness_ReadFailureSkipsOneTick :
    let s := running (frameCfg 4 8 0) [.fail, .data [1, 0, 0, 0]]
    let s' := running (frameCfg 4 8 0) [.halted ⟨[]⟩]
    let req := readRequest Config.params s.cfg
    (s.mode = .run ∧ respond Config.params req (nextAnswer s.host req) = .fail ∧
      respond Config.params req (nextAnswer (afterRead s.host req) req) = .data [1, 0, 0, 0] ∧
      ([1, 0, 0, 0] : RawFrame).length = expectedUnits s.cfg) ∧
    s'.mode = .run ∧ respond Config.params req (nextAnswer s'.host req) = .fail := by decide

theorem witness_CorrectedVisitsCoverGridOnce :
    3 < 4 ∧ 15 < 8 * 2 ∧ (⟨1, 3, 7⟩ : Visit) ∈ monoVisits 4 2 := by decide

theorem witness_VisitsRunPageColumnBit : 1 < 2 ∧ 3 < 4 ∧ 7 < 8 := by decide

theorem witness_LegacyAgreesAtOneOrEightPages :
    (⟨7, 0, 7⟩ : Visit).p < 8 ∧ (⟨0, 0, 7⟩ : Visit).p < 1 ∧
    (pagesOf (frameCfg 128 64 0) = 8 ∧ heightOf (frameCfg 128 64 0) % 8 = 0) ∧
    (pagesOf (frameCfg 4 8 0) = 1 ∧ heightOf (frameCfg 4 8 0) % 8 = 0) ∧ 2 ≠ 1 ∧ 2 ≠ 8 := by decide

/-- M28 and M29, the first and the last scanline of each clause. -/
theorem witness_LegacyGapsStayBackground :
    let c := frameCfg 1 32 0
    let c' := frameCfg 1 72 0
    (0 < widthOf c ∧ 20 < heightOf c ∧ 31 < heightOf c ∧
      1 < pagesOf c ∧ pagesOf c < 8 ∧ (pagesOf c - 1) * pagesOf c + 8 ≤ 20) ∧
    0 < widthOf c' ∧ 8 < heightOf c' ∧ 71 < heightOf c' ∧
      8 < pagesOf c' ∧ 8 ≤ 8 % pagesOf c' ∧ 8 ≤ 71 % pagesOf c' := by decide

/-- M21. -/
theorem witness_SingleBitLightsExactlyOnePixel :
    let c := frameCfg 128 64 0
    heightOf c % 8 = 0 ∧ 1023 < widthOf c * pagesOf c ∧ 7 < 8 ∧ 127 < widthOf c ∧ 63 < heightOf c :=
  ⟨rfl, by decide, by decide, by decide, by decide⟩

theorem witness_ZeroFrameIsAllBackground :
    let c := frameCfg 4 8 0
    fmtOf c = .mono1bpp ∧ heightOf c % 8 = 0 ∧ ([0, 0, 0, 0] : RawFrame).length = widthOf c * pagesOf c ∧
      ∀ u ∈ ([0, 0, 0, 0] : RawFrame), u = 0 :=
  ⟨rfl, rfl, rfl, by simp⟩

theorem witness_Rgb565ColourClosedFormInjective :
    rgb565ToColour 0xFFFF = rgb565ToColour 0xFFFF ∧ rgb565ToColour 0xFFFF = 0xF8FCF8 := by decide

theorem witness_RgbOutputOrderIsMemoryOrder :
    let c := frameCfg 4 2 2
    7 < widthOf c * heightOf c ∧ widthOf c % 4 = 0 ∧ 1 < widthOf c / 4 * heightOf c ∧ 3 < 4 := by decide

theorem witness_TickIgnoresUnusedRegisters :
    let s := running (frameCfg 4 8 0) []
    let s' := running (frameCfg 2 1 1) []
    (s.mode = .run ∧ fmtOf s.cfg = .mono1bpp) ∧ s'.mode = .run ∧ fmtOf s'.cfg ≠ .mono1bpp := by decide

theorem witness_OutRdAnswersPixel : showing.outValid = true ∧
    (3 : Halfword).toNat < widthOf showing.cfg ∧ (7 : Halfword).toNat < heightOf showing.cfg ∧
    showing.out[(3 : Halfword).toNat + (7 : Halfword).toNat * widthOf showing.cfg]? = some 0 := by decide

/-- X10 and X11, and the first column past the grid. -/
theorem witness_OutRdErrorsChangeOnlyLastErr : State.reset.outValid = false ∧
    showing.outValid = true ∧ widthOf showing.cfg ≤ (4 : Halfword).toNat ∧
    heightOf showing.cfg ≤ (8 : Halfword).toNat := by decide

theorem witness_OnlyLockAndResetChangeState :
    nextField (·.mode) (step (issuing State.reset 0x3 0)) = some .run ∧
    nextField (·.mode)
      (step (issuing { State.reset with cfg := frameCfg 128 12 0 } 0x3 0)) = some .fatal ∧
    nextField (·.mode) (step (resetting rejected)) = some .config ∧
    State.reset.mode = .config ∧ rejected.mode ≠ .config ∧ (7 : BitVec 8).toNat ≤ 7 := by decide

theorem witness_ConfigurationFrozenUntilReset :
    let s := issuing (running CfgRegs.reset []) 0x3 0
    s.mode ≠ .config ∧ HostEvent.reset ∉ s.host.events ∧
      Sys2Proof.core.run 1 s = .next (failCmd .cmdState (popEvent s)) :=
  ⟨by decide, by decide, rfl⟩

theorem witness_OutValidSetByTickClearedByReset :
    let s := running (frameCfg 4 8 0) [.data [1, 0, 0, 0]]
    (s.mode = .run ∧ s.outValid = false ∧
      nextField (fun t => (t.lastErr, t.outValid)) (exec .tick s) = some (.none, true)) ∧
    nextField (·.outValid) (step (issuing s 0x4 0)) = some true ∧
    showing.outValid = true ∧ nextField (·.outValid) (step (resetting showing)) = some false := by decide

theorem witness_OutChangedOnlyBySuccessfulTick :
    let s := running (frameCfg 2 1 1) [.data [0x00, 0xF8, 0xE0, 0x07]]
    s.out = [] ∧ nextField (·.out) (step (issuing s 0x4 0)) = some [0xF80000, 0x00FC00] := by decide

theorem witness_EveryCommandButStatRdWritesLastErr :
    ((∀ idx : BitVec 8, idx.toNat ≤ 1 → Instr.statRd 2 ≠ .statRd idx) ∧
      exec (.statRd 2) State.reset = .next (failCmd .cmdIllegal State.reset)) ∧
    ((issuing State.reset 0x26 0).host.events = [.command ⟨0x26, 0⟩] ∧ ¬ WellFormedWord 0x26) ∧
    (1 : BitVec 8).toNat ≤ 1 := by
  refine ⟨⟨fun idx h he => ?_, rfl⟩, ⟨rfl, by unfold WellFormedWord; decide⟩, by decide⟩
  cases he
  exact absurd h (by decide)

theorem witness_OnlyLockWritesLockReason : State.reset.mode = .config ∧
    FirstFails Config.params (frameCfg 0 64 0) 1 ∧ FirstFails Config.params (frameCfg 128 12 0) 4 ∧
    (∀ k, ¬ CheckFails Config.params CfgRegs.reset k) ∧
    nextField (·.lockReason)
      (step (issuing { State.reset with cfg := frameCfg 128 12 0 } 0x3 0)) = some 4 := by
  refine ⟨rfl, ?_, ?_, reset_fails_no_check, by decide⟩ <;>
    refine ⟨by simp only [CheckFails]; decide, fun j hj => ?_⟩ <;> interval_cases j <;>
    simp only [CheckFails] <;> decide

/-- The failing read of X15, the five units of X16, and a frame longer than LAST_LEN can say. -/
theorem witness_OnlyTickWritesLastLen :
    let s := running (frameCfg 4 8 0) [.fail]
    let s' := running (frameCfg 4 8 0) [.data [0, 0, 0, 0, 0]]
    let s'' := running (frameCfg 4 8 0) [.data (List.replicate (2 ^ 32) 0)]
    let req := readRequest Config.params s.cfg
    (s.mode = .run ∧ respond Config.params req (nextAnswer s.host req) = .fail) ∧
    (s'.mode = .run ∧ respond Config.params req (nextAnswer s'.host req) = .data [0, 0, 0, 0, 0]) ∧
    (s''.mode = .run ∧ ∃ us, respond Config.params req (nextAnswer s''.host req) = .data us ∧
      us.length = 2 ^ 32) ∧
    s'.lastLen = 0 ∧ nextField (·.lastLen) (step (issuing s' 0x4 0)) = some 5 :=
  ⟨⟨rfl, rfl⟩, ⟨rfl, by decide⟩, ⟨rfl, _, rfl, by rw [List.length_map, List.length_replicate]⟩, rfl,
    by decide⟩

/-- Program P3. -/
theorem witness_FatalUntilReset :
    let s : State := { State.reset with cfg := frameCfg 128 12 0 }
    (s.mode = .config ∧ nextField (·.lastErr) (exec .lock s) = some .unsupportedFormat) ∧
    rejected.mode = .fatal ∧ (7 : BitVec 8).toNat ≤ 7 ∧
    ((resetting rejected).host.events = [.reset] ∧
      nextField (·.mode) (step (resetting rejected)) = some .config) ∧
    (Instr.cfgRd 7).wf = true ∧ ErrCode.none ≠ .cmdState := by decide

theorem witness_ResetLeavesResetValues : (resetting showing).host.events = [.reset] := rfl

theorem showing_reserved_bits_zero : ReservedBitsZero Config.params showing.cfg := by
  intro r; cases r <;> decide

/-- A block that shows a frame, with a command pending and a target memory to answer from. -/
theorem witness_EveryStepKeepsInvariant :
    let s : State := { showing with
      host := { HostSide.idle with events := [.command ⟨0x4, 0⟩], answers := [.halted g33Memory] } }
    s.Inv ∧ nextField (·.lastErr) (step s) = some .none := by
  refine ⟨⟨showing_reserved_bits_zero, ⟨rfl, by decide⟩, fun _ => ⟨rfl, by decide⟩, ?_, fun h => absurd rfl h, ?_⟩,
    by decide⟩
  · exact le_trans (show 32 ≤ 8192 by omega) (Nat.le_add_right _ _)
  · intro m hm
    obtain rfl : m = g33Memory := by simpa using hm
    decide

/-- `CONFIGURE 128, 64, 0, 0` and `CONFIGURE 128, 12, 0, 0`: what they leave in the registers. -/
theorem witness_ConfigureBringsBlockIntoService :
    (∀ k, ¬ CheckFails Config.params (frameCfg 128 64 0) k) ∧
    ∃ k, CheckFails Config.params (frameCfg 128 12 0) k :=
  ⟨passes_of_zero (by decide), 4, by simp only [CheckFails]; decide⟩

end Sys2Proof.Tests
end

/-! SUPPORT. The reset configuration (00_scope.md R10, R22 to R26, R29): what its fields read, the size of
its frame, and LOCK's checks on it. -/

namespace Sys2Proof.Machine

/-! ### The fields of the reset configuration -/

@[simp] theorem widthOf_reset : widthOf CfgRegs.reset = 128 := by decide

@[simp] theorem heightOf_reset : heightOf CfgRegs.reset = 64 := by decide

@[simp] theorem fmtOf_reset : fmtOf CfgRegs.reset = .mono1bpp := by decide

@[simp] theorem fpsOf_reset : fpsOf CfgRegs.reset = 60 := by decide

/-- BASE is 0 however many of its bits are used. -/
@[simp] theorem baseOf_reset (P : Params) : baseOf P CfgRegs.reset = 0 := by
  simp [baseOf, CfgRegs.reset]

/-- R161: 128 columns of 8 pages, a byte each. -/
@[simp] theorem frameBytes_reset : frameBytes CfgRegs.reset = 1024 := by decide

/-! ### The two checks that look at the parameters (R186 checks 7 and 8) -/

/-- R10: the least `MAX_PIXELS` allowed is the size of the default grid. -/
theorem reset_fits_capacity (P : Params) :
    widthOf CfgRegs.reset * heightOf CfgRegs.reset ≤ P.maxPixels := by
  rw [widthOf_reset, heightOf_reset, Params.maxPixels, Config.minPixels]
  omega

/-- R168: the default frame starts at 0, so its 1024 bytes fit once `ADDR_BITS` is at least 10. -/
theorem reset_fits_range {P : Params} (hP : 10 ≤ P.addrBits) :
    baseOf P CfgRegs.reset + frameBytes CfgRegs.reset ≤ 2 ^ P.addrBits := by
  rw [baseOf_reset, frameBytes_reset]
  calc 0 + 1024 = 2 ^ 10 := by norm_num
    _ ≤ 2 ^ P.addrBits := Nat.pow_le_pow_right (by norm_num) hP

/-- Settles O18, check by check: the first six only read the reset values, check 7 is `MAX_PIXELS` of R10,
check 8 the size of the address space. -/
theorem resetConfigurationLocks : Obligations.ResetConfigurationLocks := by
  intro P hP k
  rw [State.reset_toBlock, Block.reset_cfg]
  intro hk
  unfold CheckFails at hk
  split at hk
  case h_1 => simp at hk
  case h_2 => simp at hk
  case h_3 => simp at hk
  case h_4 => simp at hk
  case h_5 => simp at hk
  case h_6 => simp at hk
  case h_7 => exact absurd hk (reset_fits_capacity P).not_gt
  case h_8 => exact absurd hk (reset_fits_range hP).not_gt
  case h_9 => exact hk

end Sys2Proof.Machine

/-! SUPPORT. What one command and one step can do to the state, said once, and what a LOCK and a TICK leave
in each field of the block. -/

namespace Sys2Proof.Machine

/-! ### LOCK in CONFIG, field by field (R186) -/

section LockCfg

variable (P : Params) (s : State)

@[simp] theorem lockCfg_cfg : (lockCfg P s).cfg = s.cfg := by
  rcases lockCfg_cases P s with ⟨_, h⟩ | ⟨_, h⟩ <;> rw [h] <;> rfl

@[simp] theorem lockCfg_out : (lockCfg P s).out = s.out := by
  rcases lockCfg_cases P s with ⟨_, h⟩ | ⟨_, h⟩ <;> rw [h] <;> rfl

@[simp] theorem lockCfg_outValid : (lockCfg P s).outValid = s.outValid := by
  rcases lockCfg_cases P s with ⟨_, h⟩ | ⟨_, h⟩ <;> rw [h] <;> rfl

@[simp] theorem lockCfg_lastLen : (lockCfg P s).lastLen = s.lastLen := by
  rcases lockCfg_cases P s with ⟨_, h⟩ | ⟨_, h⟩ <;> rw [h] <;> rfl

@[simp] theorem lockCfg_answers : (lockCfg P s).host.answers = s.host.answers := by
  rcases lockCfg_cases P s with ⟨_, h⟩ | ⟨_, h⟩ <;> rw [h] <;> rfl

@[simp] theorem lockCfg_lockReason : (lockCfg P s).lockReason = firstFailingCheck P s.cfg := by
  rcases lockCfg_cases P s with ⟨hz, h⟩ | ⟨_, h⟩
  · rw [h, hz]; rfl
  · rw [h]; rfl

@[simp] theorem lockCfg_mode :
    (lockCfg P s).mode = if firstFailingCheck P s.cfg = 0 then .run else .fatal := by
  rcases lockCfg_cases P s with ⟨hz, h⟩ | ⟨hz, h⟩
  · rw [h, if_pos hz]; rfl
  · rw [h, if_neg hz]; rfl

end LockCfg

/-! ### TICK in RUN, field by field (R190) -/

section FetchFrame

variable (P : Params) (s : State)

/-- The response of the port to the request of a TICK (R52, R162). -/
def tickResponse : PortResponse :=
  respond P (readRequest P s.cfg) (nextAnswer s.host (readRequest P s.cfg))

/-- The three ends of a TICK in RUN (R190). -/
theorem fetchFrame_cases :
    (tickResponse P s = .fail ∧ fetchFrame P s = failCmd .readFailure { s with
        lastLen := 0, host := afterRead s.host (readRequest P s.cfg) }) ∨
      (∃ us, tickResponse P s = .data us ∧ us.length ≠ expectedUnits s.cfg ∧
        fetchFrame P s = failCmd .frameSizeMismatch { s with
          lastLen := saturate32 us.length, host := afterRead s.host (readRequest P s.cfg) }) ∨
      ∃ us, tickResponse P s = .data us ∧ us.length = expectedUnits s.cfg ∧
        fetchFrame P s = okCmd 0 { s with
          lastLen := saturate32 us.length, out := decodeFrame P s.cfg us, outValid := true
          host := afterRead s.host (readRequest P s.cfg) } :=
  takeResponse_cases P (tickResponse P s) { s with host := afterRead s.host (readRequest P s.cfg) }

@[simp] theorem fetchFrame_cfg : (fetchFrame P s).cfg = s.cfg := by
  rcases fetchFrame_cases P s with ⟨_, h⟩ | ⟨_, _, _, h⟩ | ⟨_, _, _, h⟩ <;> rw [h] <;> rfl

@[simp] theorem fetchFrame_mode : (fetchFrame P s).mode = s.mode := by
  rcases fetchFrame_cases P s with ⟨_, h⟩ | ⟨_, _, _, h⟩ | ⟨_, _, _, h⟩ <;> rw [h] <;> rfl

@[simp] theorem fetchFrame_lockReason : (fetchFrame P s).lockReason = s.lockReason := by
  rcases fetchFrame_cases P s with ⟨_, h⟩ | ⟨_, _, _, h⟩ | ⟨_, _, _, h⟩ <;> rw [h] <;> rfl

@[simp] theorem fetchFrame_answers : (fetchFrame P s).host.answers = s.host.answers.tail := by
  rcases fetchFrame_cases P s with ⟨_, h⟩ | ⟨_, _, _, h⟩ | ⟨_, _, _, h⟩ <;> rw [h] <;> rfl

/-- R31, R222: a TICK fails and leaves OUT and OUT_VALID, or decodes a frame into OUT and sets OUT_VALID. -/
theorem fetchFrame_output :
    ((fetchFrame P s).lastErr ≠ .none ∧ (fetchFrame P s).out = s.out ∧
        (fetchFrame P s).outValid = s.outValid) ∨
      ((fetchFrame P s).lastErr = .none ∧ (fetchFrame P s).outValid = true ∧
        ∃ us, (fetchFrame P s).out = decodeFrame P s.cfg us) := by
  rcases fetchFrame_cases P s with ⟨_, h⟩ | ⟨_, _, _, h⟩ | ⟨us, _, _, h⟩
  · exact .inl (by simp [h])
  · exact .inl (by simp [h])
  · exact .inr (by simp [h])

variable {P s}

theorem fetchFrame_lastLen_of_fail (hr : tickResponse P s = .fail) : (fetchFrame P s).lastLen = 0 := by
  rcases fetchFrame_cases P s with ⟨_, h⟩ | ⟨us, hd, _⟩ | ⟨us, hd, _⟩
  · simp [h]
  · simp [hd] at hr
  · simp [hd] at hr

theorem fetchFrame_lastLen_of_data {us : RawFrame} (hr : tickResponse P s = .data us) :
    (fetchFrame P s).lastLen = saturate32 us.length := by
  rcases fetchFrame_cases P s with ⟨hf, _⟩ | ⟨vs, hd, _, h⟩ | ⟨vs, hd, _, h⟩
  · simp [hf] at hr
  · obtain rfl : vs = us := by simpa [hd] using hr
    simp [h]
  · obtain rfl : vs = us := by simpa [hd] using hr
    simp [h]

end FetchFrame

/-! ### One command -/

section Equations

variable {s : State} {idx : BitVec 8}

theorem exec_lock_of_not_config (hm : s.mode ≠ .config) :
    exec .lock s = .next (failCmd .cmdState s) := by
  rw [exec, execLock, inMode_of_ne hm]

theorem exec_tick_of_not_run (hm : s.mode ≠ .run) : exec .tick s = .next (failCmd .cmdState s) := by
  rw [exec, execTick, inMode_of_ne hm]

theorem exec_cfgWr_of_illegal (hr : cfgRegOfIdx idx = none) (v : Word) :
    exec (.cfgWr idx v) s = .next (failCmd .cmdIllegal s) := by
  simp only [exec, execCfgWr, hr]

theorem exec_cfgWr_of_not_config {r : CfgReg} (hr : cfgRegOfIdx idx = some r) (hm : s.mode ≠ .config)
    (v : Word) : exec (.cfgWr idx v) s = .next (failCmd .cmdState s) := by
  simp only [exec, execCfgWr, hr, inMode_of_ne hm]

theorem exec_cfgRd_of_illegal (hr : cfgRegOfIdx idx = none) :
    exec (.cfgRd idx) s = .next (failCmd .cmdIllegal s) := by
  simp only [exec, execCfgRd, hr]

theorem exec_cfgRd_of_some {r : CfgReg} (hr : cfgRegOfIdx idx = some r) :
    exec (.cfgRd idx) s = .next (okCmd (cfgRead Config.params s.cfg r) s) := by
  simp only [exec, execCfgRd, hr]

theorem exec_statRd_of_illegal (hr : statRegOfIdx idx = none) :
    exec (.statRd idx) s = .next (failCmd .cmdIllegal s) := by
  simp only [exec, execStatRd, hr]

theorem exec_statRd_of_some {r : StatReg} (hr : statRegOfIdx idx = some r) :
    exec (.statRd idx) s = .next (answer (statRead s r) s) := by
  simp only [exec, execStatRd, hr]

end Equations

/-- What a command can do: it ends with an error code and a RESULT and does nothing more, or it is one of
the three that write other state, in the STATE that allows it. -/
theorem exec_cases {i : Instr} {s t : State} (h : exec i s = .next t) :
    (∃ e v, t = answer v { s with lastErr := e }) ∨
      (∃ idx v r, i = .cfgWr idx v ∧ s.mode = .config ∧
        t = okCmd 0 { s with cfg := cfgWrite Config.params s.cfg r v }) ∨
      (i = .lock ∧ s.mode = .config ∧ t = lockCfg Config.params s) ∨
      (i = .tick ∧ s.mode = .run ∧ t = fetchFrame Config.params s) := by
  have next {u : State} (hu : exec i s = .next u) : t = u := Host.Outcome.next.inj (h.symm.trans hu)
  cases i with
  | nop => exact .inl ⟨.none, 0, next rfl⟩
  | cfgWr idx v =>
    cases hr : cfgRegOfIdx idx with
    | none => exact .inl ⟨.cmdIllegal, 0, next (exec_cfgWr_of_illegal hr v)⟩
    | some r =>
      by_cases hm : s.mode = .config
      · exact .inr (.inl ⟨idx, v, r, rfl, hm, next (exec_cfgWr_of_config hm hr v)⟩)
      · exact .inl ⟨.cmdState, 0, next (exec_cfgWr_of_not_config hr hm v)⟩
  | cfgRd idx =>
    cases hr : cfgRegOfIdx idx with
    | none => exact .inl ⟨.cmdIllegal, 0, next (exec_cfgRd_of_illegal hr)⟩
    | some r => exact .inl ⟨.none, _, next (exec_cfgRd_of_some hr)⟩
  | lock =>
    by_cases hm : s.mode = .config
    · exact .inr (.inr (.inl ⟨rfl, hm, next (exec_lock_of_config hm)⟩))
    · exact .inl ⟨.cmdState, 0, next (exec_lock_of_not_config hm)⟩
  | tick =>
    by_cases hm : s.mode = .run
    · exact .inr (.inr (.inr ⟨rfl, hm, next (exec_tick_of_run hm)⟩))
    · exact .inl ⟨.cmdState, 0, next (exec_tick_of_not_run hm)⟩
  | outRd x y =>
    rcases readPixel_cases x.toNat y.toNat s with ⟨_, hp⟩ | ⟨_, _, hp⟩ | ⟨_, _, _, hp⟩
    · exact .inl ⟨.outEmpty, 0, (next rfl).trans hp⟩
    · exact .inl ⟨.outRange, 0, (next rfl).trans hp⟩
    · exact .inl ⟨.none, _, (next rfl).trans hp⟩
  | statRd idx =>
    cases hr : statRegOfIdx idx with
    | none => exact .inl ⟨.cmdIllegal, 0, next (exec_statRd_of_illegal hr)⟩
    | some r => exact .inl ⟨s.lastErr, _, next (exec_statRd_of_some hr)⟩

/-! ### One step -/

/-- The command at the head of the host's events. -/
def Issues (s : State) (i : Instr) : Prop :=
  ∃ tr rest, s.host.events = .command tr :: rest ∧ decode tr = .ok i

/-- What one step can do. -/
inductive StepEffect (s : State) : State → Prop
  /-- Nothing is pending (R253). -/
  | idle : StepEffect s s
  /-- The block is reset (R250). -/
  | reset (he : s.host.events.head? = some .reset) : StepEffect s (applyReset (popEvent s))
  /-- A transaction ends with an error code and a RESULT, and does nothing more. -/
  | report (e : ErrCode) (v : Word) : StepEffect s (answer v { popEvent s with lastErr := e })
  /-- A CFG_WR writes a register (R182). -/
  | cfgWr (r : CfgReg) (v : Word) (hm : s.mode = .config) :
    StepEffect s (okCmd 0 { popEvent s with cfg := cfgWrite Config.params s.cfg r v })
  /-- A LOCK validates the configuration (R186). -/
  | lock (hi : Issues s .lock) (hm : s.mode = .config) :
    StepEffect s (lockCfg Config.params (popEvent s))
  /-- A TICK requests a frame (R190). -/
  | tick (hi : Issues s .tick) (hm : s.mode = .run) :
    StepEffect s (fetchFrame Config.params (popEvent s))

theorem stepEffect_of_step {s t : State} (h : step s = .next t) : StepEffect s t := by
  rcases step_cases h with ⟨_, rfl⟩ | ⟨rest, he, rfl⟩ | ⟨_, _, _, _, _, rfl⟩ | ⟨tr, rest, i, he, hd, hx⟩
  · exact .idle
  · exact .reset (by rw [he]; rfl)
  · exact .report .cmdIllegal 0
  · rcases exec_cases hx with ⟨e, v, rfl⟩ | ⟨_, v, r, _, hm, rfl⟩ | ⟨rfl, hm, rfl⟩ | ⟨rfl, hm, rfl⟩
    · exact .report e v
    · exact .cfgWr r v hm
    · exact .lock ⟨tr, rest, he, hd⟩ hm
    · exact .tick ⟨tr, rest, he, hd⟩ hm

end Sys2Proof.Machine

/-! SUPPORT. The invariant of the machine: the size of a decoded frame, the clauses of `State.Inv`, and that
every step keeps them. -/

namespace Sys2Proof.Machine

/-! ### A decoded frame is a whole grid -/

@[simp] theorem length_paintVisit (P : Params) (c : CfgRegs) (u : RawFrame) (g : Grid) (v : Visit) :
    (paintVisit P c u g v).length = g.length := by
  simp only [paintVisit]
  split
  · cases P.collision with
    | lastWins => simp
    | or => dsimp only; split <;> simp
  · rfl

@[simp] theorem length_foldl_paintVisit (P : Params) (c : CfgRegs) (u : RawFrame) (vs : List Visit) :
    ∀ g : Grid, (vs.foldl (paintVisit P c u) g).length = g.length := by
  induction vs with
  | nil => simp
  | cons v vs ih => intro g; rw [List.foldl_cons, ih, length_paintVisit]

/-- R30: whatever the format, DecodeFrame answers one colour per pixel. -/
theorem length_decodeFrame {P : Params} {c : CfgRegs} (hf : fmtOf c ≠ .reserved) (u : RawFrame) :
    (decodeFrame P c u).length = widthOf c * heightOf c := by
  unfold decodeFrame
  cases h : fmtOf c with
  | mono1bpp => dsimp only; split <;> simp [decodeMonoLegacy, decodeMonoCorrected]
  | rgb565le16 => simp [decodeLE16]
  | rgb565quad64 => simp [decodeQuad]
  | reserved => exact absurd h hf

/-! ### The clauses of the invariant -/

/-- R37, R182: CFG_WR stores no reserved bit. -/
theorem reservedBitsZero_cfgWrite {P : Params} {c : CfgRegs} (h : ReservedBitsZero P c) (r : CfgReg)
    (v : Word) : ReservedBitsZero P (cfgWrite P c r v) := by
  intro r'
  by_cases hr : r' = r
  · subst hr; rw [cfgWrite, cfgGet_cfgSet_self, fieldOf_fieldOf]
  · rw [cfgWrite, cfgGet_cfgSet_of_ne _ _ hr]; exact h r'

theorem reservedBitsZero_reset : ReservedBitsZero Config.params CfgRegs.reset := by
  intro r; cases r <;> decide

section Lifecycle

variable {P : Params} {s : State}

theorem lifecycleAgrees_config (hm : s.mode = .config) : LifecycleAgrees P s ↔ s.lockReason = 0 := by
  simp [LifecycleAgrees, hm]

theorem lifecycleAgrees_run (hm : s.mode = .run) :
    LifecycleAgrees P s ↔ s.lockReason = 0 ∧ firstFailingCheck P s.cfg = 0 := by
  simp [LifecycleAgrees, hm]

theorem lifecycleAgrees_fatal (hm : s.mode = .fatal) :
    LifecycleAgrees P s ↔ s.lockReason = firstFailingCheck P s.cfg ∧ s.lockReason ≠ 0 := by
  simp [LifecycleAgrees, hm]

end Lifecycle

/-- R31, R32: OUT_VALID is 0 before the LOCK that brings RUN. -/
theorem State.Inv.outValid_of_config {s : State} (hs : s.Inv) (hm : s.mode = .config) :
    s.outValid = false := by
  by_contra hv
  have hrun := (hs.output (by simpa using hv)).1
  simp [hm] at hrun

/-- R186, R192: a frame that a TICK decodes in RUN is W * H pixels, within the capacity of OUT. -/
theorem State.Inv.frame_fits {s : State} (hs : s.Inv) (hm : s.mode = .run) (u : RawFrame) :
    (decodeFrame Config.params s.cfg u).length = widthOf s.cfg * heightOf s.cfg ∧
      widthOf s.cfg * heightOf s.cfg ≤ Config.params.maxPixels := by
  obtain ⟨_, hcheck⟩ := (lifecycleAgrees_run hm).1 hs.lifecycle
  obtain ⟨_, _, hfmt, _, _, _, hcap, _⟩ := firstFailingCheck_eq_zero hcheck
  exact ⟨length_decodeFrame hfmt u, hcap⟩

/-! ### What keeps the invariant -/

theorem inv_applyReset {s : State} (hs : s.Inv) : (applyReset s).Inv where
  reserved := reservedBitsZero_reset
  lifecycle := (lifecycleAgrees_config rfl).2 rfl
  output := by simp [OutputAgrees]
  capacity := by simp
  lastLen := fun _ => rfl
  memories := hs.memories

/-- No clause speaks of the pending events. -/
theorem inv_popEvent {s : State} (hs : s.Inv) : (popEvent s).Inv where
  reserved := hs.reserved
  lifecycle := hs.lifecycle
  output := hs.output
  capacity := hs.capacity
  lastLen := hs.lastLen
  memories := hs.memories

/-- No clause speaks of LAST_ERR or RESULT. -/
theorem inv_report {s : State} (hs : s.Inv) (e : ErrCode) (v : Word) :
    (answer v { s with lastErr := e }).Inv where
  reserved := hs.reserved
  lifecycle := hs.lifecycle
  output := hs.output
  capacity := hs.capacity
  lastLen := hs.lastLen
  memories := hs.memories

theorem inv_cfgWr {s : State} (hs : s.Inv) (hm : s.mode = .config) (r : CfgReg) (v : Word) :
    (okCmd 0 { s with cfg := cfgWrite Config.params s.cfg r v }).Inv where
  reserved := reservedBitsZero_cfgWrite hs.reserved r v
  lifecycle := (lifecycleAgrees_config (by simp [hm])).2
    (by simpa using (lifecycleAgrees_config hm).1 hs.lifecycle)
  output := by simp [OutputAgrees, hs.outValid_of_config hm]
  capacity := hs.capacity
  lastLen := hs.lastLen
  memories := hs.memories

theorem inv_lockCfg {s : State} (hs : s.Inv) (hm : s.mode = .config) :
    (lockCfg Config.params s).Inv where
  reserved := by simpa using hs.reserved
  lifecycle := by
    by_cases h : firstFailingCheck Config.params s.cfg = 0
    · exact (lifecycleAgrees_run (by simp [h])).2 (by simp [h])
    · exact (lifecycleAgrees_fatal (by rw [lockCfg_mode, if_neg h])).2 (by simpa using h)
  output := by simp [OutputAgrees, hs.outValid_of_config hm]
  capacity := by simpa using hs.capacity
  lastLen := fun _ => by simpa using hs.lastLen (by simp [hm])
  memories := by simpa using hs.memories

theorem inv_fetchFrame {s : State} (hs : s.Inv) (hm : s.mode = .run) :
    (fetchFrame Config.params s).Inv where
  reserved := by simpa using hs.reserved
  lifecycle := (lifecycleAgrees_run (by simp [hm])).2 (by simpa using (lifecycleAgrees_run hm).1 hs.lifecycle)
  output := by
    intro hv
    refine ⟨by simp [hm], ?_⟩
    rw [fetchFrame_cfg]
    rcases fetchFrame_output Config.params s with ⟨_, ho, hv'⟩ | ⟨_, _, us, ho⟩
    · rw [ho]; exact (hs.output (hv' ▸ hv)).2
    · rw [ho]; exact (hs.frame_fits hm us).1
  capacity := by
    rcases fetchFrame_output Config.params s with ⟨_, ho, _⟩ | ⟨_, _, us, ho⟩
    · rw [ho]; exact hs.capacity
    · obtain ⟨hlen, hcap⟩ := hs.frame_fits hm us
      rw [ho, hlen]; exact hcap
  lastLen := fun h => absurd (by simp [hm]) h
  memories := fun m h => hs.memories m (List.mem_of_mem_tail (by simpa using h))

/-- Settles O58: each of the things a step can do keeps every clause. -/
theorem everyStepKeepsInvariant : Obligations.EveryStepKeepsInvariant := by
  intro s t hs h
  cases stepEffect_of_step h with
  | idle => exact hs
  | reset _ => exact inv_applyReset (inv_popEvent hs)
  | report e v => exact inv_report (inv_popEvent hs) e v
  | cfgWr r v hm => exact inv_cfgWr (inv_popEvent hs) hm r v
  | lock _ hm => exact inv_lockCfg (inv_popEvent hs) hm
  | tick _ hm => exact inv_fetchFrame (inv_popEvent hs) hm

end Sys2Proof.Machine

/-! SUPPORT. LOCK's checks: the number LOCK computes is that of the first check that fails (R34, R186). -/

namespace Sys2Proof.Machine

variable {P : Params} {c : CfgRegs} {k : Nat}

/-- The checks are numbered 1 to 8 (R186). -/
theorem checkFails_range (h : CheckFails P c k) : 1 ≤ k ∧ k ≤ 8 := by
  unfold CheckFails at h
  split at h
  case h_9 => exact h.elim
  all_goals omega

/-- No check before check `k` fails. -/
def PassesBelow (P : Params) (c : CfgRegs) (k : Nat) : Prop := ∀ j < k, ¬ CheckFails P c j

theorem passesBelow_one : PassesBelow P c 1 := fun j hj hc => by
  have := (checkFails_range hc).1
  omega

theorem PassesBelow.succ (h : PassesBelow P c k) (hk : ¬ CheckFails P c k) : PassesBelow P c (k + 1) :=
  Nat.forall_lt_succ_right.2 ⟨h, hk⟩

theorem PassesBelow.all (h : PassesBelow P c 9) (j : Nat) : ¬ CheckFails P c j := fun hj =>
  h j (by have := (checkFails_range hj).2; omega) hj

/-- LOCK computes 0 when no check fails, and otherwise the number of a check that fails after none that
does: its conditions are those of the checks, in their order. -/
theorem firstFailingCheck_spec (P : Params) (c : CfgRegs) :
    (firstFailingCheck P c = 0 ∧ ∀ k, ¬ CheckFails P c k) ∨
      (CheckFails P c (firstFailingCheck P c).toNat ∧
        PassesBelow P c (firstFailingCheck P c).toNat) := by
  simp only [firstFailingCheck, overCapacity_iff, rangeOK, decide_eq_true_iff, Nat.not_le]
  have p1 : PassesBelow P c 1 := passesBelow_one
  split
  next h => exact .inr ⟨h, p1⟩
  next h =>
  have p2 : PassesBelow P c 2 := p1.succ h
  split
  next h => exact .inr ⟨h, p2⟩
  next h =>
  have p3 : PassesBelow P c 3 := p2.succ h
  split
  next h => exact .inr ⟨h, p3⟩
  next h =>
  have p4 : PassesBelow P c 4 := p3.succ h
  split
  next h => exact .inr ⟨h, p4⟩
  next h =>
  have p5 : PassesBelow P c 5 := p4.succ h
  split
  next h => exact .inr ⟨h, p5⟩
  next h =>
  have p6 : PassesBelow P c 6 := p5.succ h
  split
  next h => exact .inr ⟨h, p6⟩
  next h =>
  have p7 : PassesBelow P c 7 := p6.succ h
  split
  next h => exact .inr ⟨h, p7⟩
  next h =>
  have p8 : PassesBelow P c 8 := p7.succ h
  split
  next h => exact .inr ⟨h, p8⟩
  next h => exact .inl ⟨rfl, (p8.succ h).all⟩

/-- There is one first failing check. -/
theorem firstFailingCheck_toNat_of_first (hk : CheckFails P c k) (hp : PassesBelow P c k) :
    (firstFailingCheck P c).toNat = k := by
  rcases firstFailingCheck_spec P c with ⟨_, hall⟩ | ⟨hf, hpf⟩
  · exact absurd hk (hall k)
  · have h1 : ¬ (firstFailingCheck P c).toNat < k := fun h => hp _ h hf
    have h2 : ¬ k < (firstFailingCheck P c).toNat := fun h => hpf _ h hk
    omega

theorem firstFailingCheck_of_passes (h : ∀ k, ¬ CheckFails P c k) : firstFailingCheck P c = 0 := by
  rcases firstFailingCheck_spec P c with ⟨hz, _⟩ | ⟨hf, _⟩
  · exact hz
  · exact absurd hf (h _)

end Sys2Proof.Machine

/-! Who writes STATE, LOCK_REASON, OUT, OUT_VALID and LAST_LEN (R30 to R32, R34, R35). -/

namespace Sys2Proof.Machine

/-! ### What is left to reset, LOCK and TICK -/

/-- The output and the status fields but for LAST_ERR are as they were. -/
structure KeepsStatus (s t : State) : Prop where
  out : t.out = s.out
  outValid : t.outValid = s.outValid
  mode : t.mode = s.mode
  lockReason : t.lockReason = s.lockReason
  lastLen : t.lastLen = s.lastLen

/-- A step writes the output or a status field other than LAST_ERR only by a reset, a LOCK in CONFIG or a
TICK in RUN. -/
theorem step_status_cases {s t : State} (h : step s = .next t) :
    KeepsStatus s t ∨
      (s.host.events.head? = some .reset ∧ t = applyReset (popEvent s)) ∨
      (Issues s .lock ∧ s.mode = .config ∧ t = lockCfg Config.params (popEvent s)) ∨
      (Issues s .tick ∧ s.mode = .run ∧ t = fetchFrame Config.params (popEvent s)) := by
  cases stepEffect_of_step h with
  | idle => exact .inl ⟨rfl, rfl, rfl, rfl, rfl⟩
  | reset he => exact .inr (.inl ⟨he, rfl⟩)
  | report e v => exact .inl ⟨rfl, rfl, rfl, rfl, rfl⟩
  | cfgWr r v hm => exact .inl ⟨rfl, rfl, rfl, rfl, rfl⟩
  | lock hi hm => exact .inr (.inr (.inl ⟨hi, hm, rfl⟩))
  | tick hi hm => exact .inr (.inr (.inr ⟨hi, hm, rfl⟩))

/-! ### STATE and LOCK_REASON -/

theorem modeCode_ne_three (m : Mode) : modeCode m ≠ 3 := by cases m <;> decide

/-- Settles O48: of reset, LOCK and TICK, TICK does not write STATE, and LOCK writes it as its checks end. -/
theorem onlyLockAndResetChangeState : Obligations.OnlyLockAndResetChangeState := by
  refine ⟨rfl, rfl, rfl, rfl, modeCode_ne_three, ?_, ?_, ?_⟩
  · intro s t h hne
    rcases step_status_cases h with hk | ⟨he, rfl⟩ | ⟨⟨tr, rest, he, hd⟩, hm, rfl⟩ | ⟨_, _, rfl⟩
    · exact absurd hk.mode hne
    · exact .inl ⟨he, rfl⟩
    · refine .inr ⟨tr, rest, he, hd, hm, ?_⟩
      rw [lockCfg_mode, popEvent_cfg]
      by_cases hf : firstFailingCheck Config.params s.cfg = 0
      · exact .inl ⟨hf, if_pos hf⟩
      · exact .inr ⟨hf, if_neg hf⟩
    · exact absurd (fetchFrame_mode _ _) hne
  · intro s hm
    exact ⟨_, exec_lock_of_config hm, lockCfg_mode _ _⟩
  · intro s idx v hm hidx
    obtain ⟨r, hr⟩ := Option.isSome_iff_exists.1 ((cfgRegOfIdx_isSome_iff idx).2 hidx)
    exact ⟨_, exec_cfgWr_of_not_config hr hm v, rfl, rfl⟩

/-- Settles O53: LOCK records what `firstFailingCheck` computes, and TICK does not write LOCK_REASON. -/
theorem onlyLockWritesLockReason : Obligations.OnlyLockWritesLockReason := by
  refine ⟨rfl, ?_, ?_⟩
  · intro s hm
    refine ⟨_, exec_lock_of_config hm, fun k hk hfirst => ?_, fun hall => ?_⟩
    · rw [lockCfg_lockReason, firstFailingCheck_toNat_of_first hk hfirst]
    · rw [lockCfg_lockReason, firstFailingCheck_of_passes hall]
  · intro s t h hne
    rcases step_status_cases h with hk | ⟨he, rfl⟩ | ⟨⟨tr, rest, he, hd⟩, hm, rfl⟩ | ⟨_, _, rfl⟩
    · exact absurd hk.lockReason hne
    · exact .inl he
    · exact .inr ⟨tr, rest, he, hd, hm⟩
    · exact absurd (fetchFrame_lockReason _ _) hne

/-! ### OUT and LAST_LEN -/

/-- Settles O51: LOCK does not write OUT, and a TICK that fails does not either. -/
theorem outChangedOnlyBySuccessfulTick : Obligations.OutChangedOnlyBySuccessfulTick := by
  intro s t h hne
  rcases step_status_cases h with hk | ⟨he, rfl⟩ | ⟨_, _, rfl⟩ | ⟨⟨tr, rest, he, hd⟩, hm, rfl⟩
  · exact absurd hk.out hne
  · exact .inl he
  · exact absurd (lockCfg_out _ _) hne
  · rcases fetchFrame_output Config.params (popEvent s) with ⟨_, ho, _⟩ | ⟨hn, hv, _⟩
    · exact absurd ho hne
    · exact .inr ⟨tr, rest, he, hd, hm, hn, hv⟩

theorem saturate32_toNat (n : Nat) : (saturate32 n).toNat = min n (2 ^ 32 - 1) := by
  rw [saturate32, BitVec.toNat_ofNat]
  exact Nat.mod_eq_of_lt (by omega)

/-- Settles O54: a TICK writes LAST_LEN from its response, and LOCK does not write it. -/
theorem onlyTickWritesLastLen : Obligations.OnlyTickWritesLastLen := by
  refine ⟨rfl, ?_, ?_⟩
  · intro s hm
    refine ⟨_, exec_tick_of_run hm, fetchFrame_lastLen_of_fail, fun us hus => ?_⟩
    rw [fetchFrame_lastLen_of_data hus, saturate32_toNat]
  · intro s t h hne
    rcases step_status_cases h with hk | ⟨he, rfl⟩ | ⟨_, _, rfl⟩ | ⟨⟨tr, rest, he, hd⟩, hm, rfl⟩
    · exact absurd hk.lastLen hne
    · exact .inl he
    · exact absurd (lockCfg_lastLen _ _) hne
    · exact .inr ⟨tr, rest, he, hd, hm⟩

end Sys2Proof.Machine

/-! STATUS as STAT_RD answers it (R36, R193), and who writes OUT_VALID (R31). -/

namespace Sys2Proof.Machine

/-! ### The fields of STATUS (R36) -/

section StatusWord

variable (s : State)

/-- STATUS as a number: the fields of R36's table at their places. -/
theorem statusWord_toNat : (statusWord s).toNat =
    s.lockReason.toNat * 256 + (errCode s.lastErr).toNat * 16 + s.outValid.toNat * 4 +
      (modeCode s.mode).toNat := by
  have hm := (modeCode s.mode).isLt
  have hv := (BitVec.ofBool s.outValid).isLt
  have he := (errCode s.lastErr).isLt
  have hl := s.lockReason.isLt
  change ((0 : BitVec 20) ++ s.lockReason ++ errCode s.lastErr ++ (0 : BitVec 1) ++
    BitVec.ofBool s.outValid ++ modeCode s.mode : BitVec (20 + 4 + 4 + 1 + 1 + 2)).toNat = _
  simp only [BitVec.toNat_append]
  rw [← Nat.shiftLeft_add_eq_or_of_lt hm, ← Nat.shiftLeft_add_eq_or_of_lt hv,
    ← Nat.shiftLeft_add_eq_or_of_lt (by simp), ← Nat.shiftLeft_add_eq_or_of_lt he,
    ← Nat.shiftLeft_add_eq_or_of_lt hl]
  simp only [Nat.shiftLeft_eq, BitVec.toNat_ofBool]
  simp
  omega

theorem statusWord_mode : (statusWord s).extractLsb' 0 2 = modeCode s.mode := by
  apply BitVec.eq_of_toNat_eq
  have hm := (modeCode s.mode).isLt
  rw [BitVec.extractLsb'_toNat, statusWord_toNat, Nat.shiftRight_eq_div_pow]
  omega

theorem statusWord_lastErr : (statusWord s).extractLsb' 4 4 = errCode s.lastErr := by
  apply BitVec.eq_of_toNat_eq
  have hm := (modeCode s.mode).isLt
  have hv := s.outValid.toNat_lt
  have he := (errCode s.lastErr).isLt
  rw [BitVec.extractLsb'_toNat, statusWord_toNat, Nat.shiftRight_eq_div_pow]
  omega

theorem statusWord_lockReason : (statusWord s).extractLsb' 8 4 = s.lockReason := by
  apply BitVec.eq_of_toNat_eq
  have hm := (modeCode s.mode).isLt
  have hv := s.outValid.toNat_lt
  have he := (errCode s.lastErr).isLt
  have hl := s.lockReason.isLt
  rw [BitVec.extractLsb'_toNat, statusWord_toNat, Nat.shiftRight_eq_div_pow]
  omega

theorem statusWord_outValid : (statusWord s).getLsbD 2 = s.outValid := by
  have hm := (modeCode s.mode).isLt
  rw [BitVec.getLsbD, Nat.testBit_eq_decide_div_mod_eq, statusWord_toNat]
  cases s.outValid <;> simp <;> omega

theorem statusWord_bit_three : (statusWord s).getLsbD 3 = false := by
  have hm := (modeCode s.mode).isLt
  have hv := s.outValid.toNat_lt
  rw [BitVec.getLsbD, Nat.testBit_eq_decide_div_mod_eq, statusWord_toNat]
  simp
  omega

theorem statusWord_lt : (statusWord s).toNat < 2 ^ 12 := by
  have hm := (modeCode s.mode).isLt
  have hv := s.outValid.toNat_lt
  have he := (errCode s.lastErr).isLt
  have hl := s.lockReason.isLt
  rw [statusWord_toNat]
  omega

end StatusWord

/-- Settles O47, field by field of STATUS. -/
theorem statRdAnswersStatusFields : Obligations.StatRdAnswersStatusFields := by
  intro s
  refine ⟨⟨statusWord s, exec_statRd_of_some (r := .status) rfl, statusWord_mode s, statusWord_outValid s,
    statusWord_bit_three s, statusWord_lastErr s, statusWord_lockReason s, statusWord_lt s⟩,
    exec_statRd_of_some (r := .lastLen) rfl, ?_⟩
  exact ⟨rfl, rfl, rfl, rfl, rfl, rfl, rfl, rfl, rfl, rfl, rfl⟩

/-! ### OUT_VALID (R31) -/

/-- Settles O50: LOCK does not write OUT_VALID, a TICK never clears it, and one that ends without error
sets it. -/
theorem outValidSetByTickClearedByReset : Obligations.OutValidSetByTickClearedByReset := by
  refine ⟨rfl, ?_, ?_, ?_, statusWord_outValid⟩
  · intro s t hm h hn
    obtain rfl := Host.Outcome.next.inj ((exec_tick_of_run hm).symm.trans h)
    rcases fetchFrame_output Config.params s with ⟨hn', _⟩ | ⟨_, hv, _⟩
    · exact absurd hn hn'
    · exact hv
  · intro s t h hs ht
    rcases step_status_cases h with hk | ⟨_, rfl⟩ | ⟨_, _, rfl⟩ | ⟨hi, _, _⟩
    · simp [hk.outValid, hs] at ht
    · simp at ht
    · simp [hs] at ht
    · exact hi
  · intro s t h hs ht
    rcases step_status_cases h with hk | ⟨he, _⟩ | ⟨_, _, rfl⟩ | ⟨_, _, rfl⟩
    · simp [hk.outValid, hs] at ht
    · exact he
    · simp [hs] at ht
    · rcases fetchFrame_output Config.params (popEvent s) with ⟨_, _, hv⟩ | ⟨_, hv, _⟩
      · simp [hv, hs] at ht
      · simp [hv] at ht

end Sys2Proof.Machine

/-! What does not show in a command's effect: reserved bits (R37), the registers a decoder does not use
(R27 to R29, R188), and the old LAST_ERR (R33). -/

namespace Sys2Proof.Machine

/-! ### Reserved bits (R37) -/

/-- Two values with the same defined bits have the same field. -/
theorem fieldOf_eq_of_mod {P : Params} {r : CfgReg} {v w : Word}
    (h : v.toNat % 2 ^ fieldWidth P r = w.toNat % 2 ^ fieldWidth P r) : fieldOf P r v = fieldOf P r w :=
  BitVec.eq_of_toNat_eq (by rw [fieldOf_toNat, fieldOf_toNat, h])

/-- Settles O15: CFG_WR stores and CFG_RD answers `fieldOf`, which keeps the defined bits only. -/
theorem reservedBitsWriteIgnoredReadZero : Obligations.ReservedBitsWriteIgnoredReadZero := by
  intro s idx r hr
  refine ⟨fun v w hm h => ?_, fun v hm => ?_, ?_⟩
  · rw [exec_cfgWr_of_config hm hr, exec_cfgWr_of_config hm hr, cfgWrite, cfgWrite, fieldOf_eq_of_mod h]
  · refine ⟨_, exec_cfgWr_of_config hm hr v, rfl, ?_⟩
    rw [okCmd_cfg, cfgWrite, cfgGet_cfgSet_self, fieldOf_toNat]
  · exact ⟨_, _, exec_cfgRd_of_some hr, rfl, fieldOf_toNat _ _ _⟩

/-! ### Registers a decode does not use (R27 to R29, R188) -/

/-- FPS is read by no decoder (R28). -/
theorem decodeFrame_fps (P : Params) (c : CfgRegs) (fps : Word) (u : RawFrame) :
    decodeFrame P { c with fps := fps } u = decodeFrame P c u := rfl

/-- R139, R140: the colours and ROWMAP are read by the Mono1bpp decoder only. -/
theorem decodeFrame_unused {c : CfgRegs} {fg bg rowmap : Word} (fps : Word)
    (h : fmtOf c = .mono1bpp → fg = c.fgColor ∧ bg = c.bgColor ∧ rowmap = c.rowmap)
    (P : Params) (u : RawFrame) :
    decodeFrame P { c with fgColor := fg, bgColor := bg, rowmap := rowmap, fps := fps } u =
      decodeFrame P c u := by
  have hf' : fmtOf { c with fgColor := fg, bgColor := bg, rowmap := rowmap, fps := fps } = fmtOf c := rfl
  cases hf : fmtOf c with
  | mono1bpp =>
    obtain ⟨rfl, rfl, rfl⟩ := h hf
    exact decodeFrame_fps P c fps u
  | rgb565le16 => simp only [decodeFrame, hf', hf]; rfl
  | rgb565quad64 => simp only [decodeFrame, hf', hf]; rfl
  | reserved => simp only [decodeFrame, hf', hf]

section SetCfg

variable {P : Params} {s : State} {c : CfgRegs}

/-- A configuration that expects as many units and decodes every frame alike changes nothing in what a
response leaves but itself. -/
theorem takeResponse_setCfg (hunits : expectedUnits c = expectedUnits s.cfg)
    (hdec : ∀ u, decodeFrame P c u = decodeFrame P s.cfg u) (resp : PortResponse) :
    takeResponse P resp { s with cfg := c } = { takeResponse P resp s with cfg := c } := by
  cases resp with
  | fail => rfl
  | data us =>
    by_cases hl : us.length = expectedUnits s.cfg
    · simp only [takeResponse, lengthOK, hunits, hdec, hl, decide_true, if_true]
      rfl
    · simp only [takeResponse, lengthOK, hunits, hl, decide_false, Bool.false_eq_true, if_false]
      rfl

/-- The same of a TICK, when the request is the same one too. -/
theorem exec_tick_setCfg (hm : s.mode = .run)
    (hreq : readRequest Config.params c = readRequest Config.params s.cfg)
    (hdec : ∀ u, decodeFrame Config.params c u = decodeFrame Config.params s.cfg u) :
    exec .tick { s with cfg := c } = .next { fetchFrame Config.params s with cfg := c } := by
  rw [exec_tick_of_run (s := { s with cfg := c }) hm]
  simp only [fetchFrame, hreq]
  exact congrArg Host.Outcome.next (takeResponse_setCfg
    (s := { s with host := afterRead s.host (readRequest Config.params s.cfg) })
    (congrArg ReadRequest.count hreq) hdec _)

end SetCfg

/-- Settles O44: the request is made of WIDTH, HEIGHT, FORMAT and BASE, and the decoder of the format reads
none of the registers that change. -/
theorem tickIgnoresUnusedRegisters : Obligations.TickIgnoresUnusedRegisters := by
  intro s fg bg rowmap fps hm h
  exact ⟨_, exec_tick_of_run hm, exec_tick_setCfg hm rfl (decodeFrame_unused fps h _)⟩

/-! ### The old LAST_ERR (R33, R193) -/

section SetLastErr

variable (s : State) (e : ErrCode)

theorem inMode_setLastErr {m : Mode} {k k' : State} (hk : k' = k) :
    inMode m { s with lastErr := e } k' = inMode m s k := by
  subst hk; rfl

theorem lockCfg_setLastErr (P : Params) : lockCfg P { s with lastErr := e } = lockCfg P s := by
  simp only [lockCfg]
  split <;> rfl

theorem takeResponse_setLastErr (P : Params) (resp : PortResponse) :
    takeResponse P resp { s with lastErr := e } = takeResponse P resp s := by
  cases resp with
  | fail => rfl
  | data us =>
    simp only [takeResponse]
    split <;> rfl

theorem fetchFrame_setLastErr (P : Params) : fetchFrame P { s with lastErr := e } = fetchFrame P s :=
  takeResponse_setLastErr { s with host := afterRead s.host (readRequest P s.cfg) } e P _

theorem readPixel_setLastErr (x y : Nat) : readPixel x y { s with lastErr := e } = readPixel x y s := by
  simp only [readPixel]
  split
  · rfl
  · split <;> rfl

/-- R33: a command other than a STAT_RD with a legal IDX does not see the old LAST_ERR. -/
theorem exec_setLastErr {i : Instr} (hi : ∀ idx : BitVec 8, idx.toNat ≤ 1 → i ≠ .statRd idx) :
    exec i { s with lastErr := e } = exec i s := by
  cases i with
  | nop => rfl
  | cfgWr idx v =>
    simp only [exec, execCfgWr]
    cases cfgRegOfIdx idx with
    | none => rfl
    | some r => exact congrArg Host.Outcome.next (inMode_setLastErr s e rfl)
  | cfgRd idx =>
    simp only [exec, execCfgRd]
    cases cfgRegOfIdx idx <;> rfl
  | lock => exact congrArg Host.Outcome.next (inMode_setLastErr s e (lockCfg_setLastErr s e _))
  | tick => exact congrArg Host.Outcome.next (inMode_setLastErr s e (fetchFrame_setLastErr s e _))
  | outRd x y => exact congrArg Host.Outcome.next (readPixel_setLastErr s e _ _)
  | statRd idx =>
    have hr : statRegOfIdx idx = none := statRegOfIdx_eq_none (by
      by_contra hle
      exact hi idx (by omega) rfl)
    rw [exec_statRd_of_illegal hr, exec_statRd_of_illegal hr]
    rfl

end SetLastErr

/-- R72: the decoder answers a command only for a well-formed word; the case split is that of `idxLegal`. -/
theorem wellFormedWord_of_decode {t : Transaction} {i : Instr} (h : decode t = .ok i) :
    WellFormedWord t.cmd := by
  obtain ⟨hrsvd, hop, hidx⟩ := (decode_eq_ok_iff t i).1 h
  have hop6 : ¬ 6 < (fieldOp t.cmd).toNat := fun h6 => by
    rw [(instrOfOp_eq_none_iff _ _ t.data).2 h6] at hop
    cases hop
  have hrsvd0 : (fieldRsvd t.cmd).toNat = 0 := by rw [hrsvd]; rfl
  rw [fieldRsvd_toNat] at hrsvd0
  rw [fieldOp_toNat] at hop6
  unfold idxLegal at hidx
  rw [fieldOp_toNat] at hidx
  split at hidx <;> simp only [decide_eq_true_eq, ← BitVec.toNat_inj, BitVec.ofNat_eq_ofNat,
    BitVec.toNat_ofNat, Nat.zero_mod, fieldIdx_toNat] at hidx
  all_goals
    unfold WellFormedWord
    omega

/-- R226: a pending word that is not well-formed fails CMD_ILLEGAL. -/
theorem step_of_illegal_word {s : State} {t : Transaction} {rest : List HostEvent}
    (he : s.host.events = .command t :: rest) (hw : ¬ WellFormedWord t.cmd) :
    step s = .next (failCmd .cmdIllegal (popEvent s)) := by
  cases hd : decode t with
  | ok i => exact absurd (wellFormedWord_of_decode hd) hw
  | error e => simp only [step, nextEvent, he, List.head?_cons, hd]

/-- Settles O52: every end of a command but that of a successful STAT_RD writes LAST_ERR, and no command
reads it. -/
theorem everyCommandButStatRdWritesLastErr : Obligations.EveryCommandButStatRdWritesLastErr := by
  refine ⟨rfl, fun i s t e hi h => (exec_setLastErr s e hi).trans h, fun s t rest e he hw => ?_,
    fun s idx hidx => ?_⟩
  · rw [step_of_illegal_word he hw, step_of_illegal_word (by exact he) hw]
    rfl
  · obtain ⟨r, hr⟩ := Option.isSome_iff_exists.1 ((statRegOfIdx_isSome_iff idx).2 hidx)
    exact ⟨_, exec_statRd_of_some hr, rfl⟩

end Sys2Proof.Machine

/-! The read port (R50 to R56): the request and the answer of a TICK, and what a byte-level port reads of
a halted target. -/

namespace Sys2Proof.Machine

/-! ### The request and the answer of a TICK (R52, R53) -/

@[simp] theorem lockCfg_requests (P : Params) (s : State) :
    (lockCfg P s).host.requests = s.host.requests := by
  rcases lockCfg_cases P s with ⟨_, h⟩ | ⟨_, h⟩ <;> rw [h] <;> rfl

@[simp] theorem fetchFrame_requests (P : Params) (s : State) :
    (fetchFrame P s).host.requests = s.host.requests ++ [readRequest P s.cfg] := by
  rcases fetchFrame_cases P s with ⟨_, h⟩ | ⟨_, _, _, h⟩ | ⟨_, _, _, h⟩ <;> rw [h] <;> rfl

/-- No command stops the block (R221, R233). -/
theorem exec_answers_next (i : Instr) (s : State) : ∃ t, exec i s = .next t := by
  obtain ⟨t, _, _, h, _⟩ := exec_of_toBlock_eq (s := s) rfl i fun _ _ => rfl
  exact ⟨t, h⟩

/-- Settles O22: of the things a command can do, only a TICK in RUN reads. -/
theorem onlyTickIssuesOneReadRequest : Obligations.OnlyTickIssuesOneReadRequest := by
  intro i s
  by_cases hread : i = .tick ∧ s.mode = .run
  · obtain ⟨rfl, hm⟩ := hread
    exact ⟨_, exec_tick_of_run hm, by simp [hm]⟩
  · obtain ⟨t, h⟩ := exec_answers_next i s
    refine ⟨t, h, ?_⟩
    rw [if_neg hread, List.append_nil]
    rcases exec_cases h with ⟨_, _, rfl⟩ | ⟨_, _, _, _, _, rfl⟩ | ⟨_, _, rfl⟩ | ⟨hi, hm, _⟩
    · rfl
    · rfl
    · exact lockCfg_requests _ s
    · exact absurd ⟨hi, hm⟩ hread

/-- The next answer is the first decided one, or a free draw where none is decided. -/
theorem nextAnswer_eq_headD (h : HostSide) (req : ReadRequest) :
    nextAnswer h req = h.answers.headD (Config.portDraw h.draws req) := by
  unfold nextAnswer
  cases h.answers <;> rfl

/-- A free draw is counted where no answer is decided. -/
theorem afterRead_draws (h : HostSide) (req : ReadRequest) :
    (afterRead h req).draws = if h.answers = [] then h.draws + 1 else h.draws := by
  unfold afterRead
  cases h.answers <;> simp

/-- Settles O23: the response of a TICK is that to `nextAnswer`, and the host's side after it is
`afterRead`. -/
theorem tickTakesOneAnswer : Obligations.TickTakesOneAnswer := by
  intro s hm
  refine ⟨_, exec_tick_of_run hm, ?_⟩
  rw [← nextAnswer_eq_headD, ← afterRead_draws s.host (readRequest Config.params s.cfg)]
  rfl

/-! ### Target memory as a byte-level port reads it (R54, R56) -/

section Memory

variable {P : Params} {m : Memory}

theorem length_of_memReadUnits {w : UnitWidth} {a n : Nat} {us : RawFrame}
    (h : memReadUnits P m w a n = some us) : us.length = n :=
  (memReadUnits_spec P m w n a us h).1

/-- Byte `k` of unit `i` is the byte at `a + i * unitBytes + k` and holds the unit's bits [8k+7:8k]. -/
theorem memReadUnits_byte {w : UnitWidth} {a n : Nat} {us : RawFrame}
    (h : memReadUnits P m w a n = some us) {i k : Nat} (hi : i < n) (hk : k < unitBytes w) :
    ∃ u, us[i]? = some u ∧
      memRead P m (a + i * unitBytes w + k) = some (u.extractLsb' (8 * k) 8) := by
  obtain ⟨bs, hbs, hu⟩ := (memReadUnits_spec P m w n a us h).2 i hi
  obtain ⟨hlen, hbytes⟩ := memReadBytes_spec P m _ _ bs hbs
  have hk8 : k < 8 := lt_of_lt_of_le hk (by cases w <;> decide)
  have hget : bs[k]? = some bs[k] := List.getElem?_eq_getElem (hlen ▸ hk)
  exact ⟨_, hu, by rw [hbytes k hk, hget, littleEndian_byte bs k _ hk8 hget]⟩

/-- A unit of one byte is that byte, zero-extended. -/
theorem memReadUnits_bits8_lt {a n : Nat} {us : RawFrame} (h : memReadUnits P m .bits8 a n = some us)
    {i : Nat} {u : Quad} (hi : i < n) (hu : us[i]? = some u) : u.toNat < 256 := by
  obtain ⟨bs, hbs, hu'⟩ := (memReadUnits_spec P m .bits8 n a us h).2 i hi
  obtain ⟨b, rfl⟩ := List.length_eq_one_iff.1 (memReadBytes_spec P m _ _ bs hbs).1
  obtain rfl : u = littleEndian [b] := Option.some.inj (hu.symm.trans hu')
  have hunit : littleEndian [b] = b.setWidth 64 := by simp [littleEndian]
  rw [hunit, BitVec.toNat_setWidth]
  exact lt_of_le_of_lt (Nat.mod_le _ _) b.isLt

/-- A read succeeds exactly where every byte of its region can be read (R58; log 8). -/
theorem memReadUnits_isSome_iff (w : UnitWidth) (a n : Nat) :
    (memReadUnits P m w a n).isSome ↔ ∀ j < n * unitBytes w, (memRead P m (a + j)).isSome := by
  have hpos : 0 < unitBytes w := by cases w <;> decide
  constructor
  · intro h j hj
    obtain ⟨us, hus⟩ := Option.isSome_iff_exists.1 h
    obtain ⟨u, _, hbyte⟩ := memReadUnits_byte hus (Nat.div_lt_of_lt_mul (Nat.mul_comm _ n ▸ hj))
      (Nat.mod_lt j hpos)
    rw [Nat.add_assoc, Nat.mul_comm, Nat.div_add_mod] at hbyte
    simp [hbyte]
  · intro h
    refine memReadUnits_isSome P m w n a fun i hi => memReadBytes_isSome P m _ _ fun k hk => ?_
    rw [Nat.add_assoc]
    refine h _ ?_
    calc i * unitBytes w + k < (i + 1) * unitBytes w := by rw [Nat.succ_mul]; omega
      _ ≤ n * unitBytes w := Nat.mul_le_mul_right _ hi

end Memory

/-- Settles O24: both widths are cases of `memReadUnits_byte`. -/
theorem portAssemblesUnitsLittleEndian : Obligations.PortAssemblesUnitsLittleEndian := by
  intro P m a n us
  refine ⟨fun h => ⟨length_of_memReadUnits h, fun i hi k hk => ?_⟩,
    fun h => ⟨length_of_memReadUnits h, fun i hi => ?_⟩⟩
  · obtain ⟨u, hu, hbyte⟩ := memReadUnits_byte h hi hk
    exact ⟨u, hu, by rw [Nat.mul_comm 8 i]; exact hbyte⟩
  · obtain ⟨u, hu, hbyte⟩ := memReadUnits_byte h hi (k := 0) (by decide)
    refine ⟨u, hu, memReadUnits_bits8_lt h hi hu, ?_⟩
    simpa [unitBytes, BitVec.setWidth_eq_extractLsb'] using hbyte

/-! ### The halfword of a pixel (R55, R56, R132, R134) -/

/-- R132: the second unit is the high byte. -/
theorem unpack16_eq_append (u : RawFrame) (j : Nat) :
    unpack16 u j = byteAt u (2 * j + 1) ++ byteAt u (2 * j) := by
  rw [unpack16, BitVec.or_comm, BitVec.append_def, BitVec.shiftLeftZeroExtend_eq]
  rfl

/-- R134: lane `k` is bytes `2k` and `2k + 1` of its unit. -/
theorem unpackQuad_eq_append (u : Quad) (k : Nat) :
    unpackQuad u k = u.extractLsb' (8 * (2 * k + 1)) 8 ++ u.extractLsb' (8 * (2 * k)) 8 := by
  rw [BitVec.extractLsb'_append_extractLsb'_eq_extractLsb' (by omega), unpackQuad,
    show 16 * k = 8 * (2 * k) by omega]

/-- A halfword as a number, from its bytes. -/
theorem toNat_append_byte (hi lo : Byte) : (hi ++ lo).toNat = lo.toNat + 256 * hi.toNat := by
  rw [BitVec.toNat_append, ← Nat.shiftLeft_add_eq_or_of_lt lo.isLt, Nat.shiftLeft_eq]
  omega

/-- R136 to R138, in closed arithmetic. -/
theorem rgb565ToColour_toNat (v : Halfword) : (rgb565ToColour v).toNat =
    v.toNat / 2048 * 8 * 65536 + v.toNat / 32 % 64 * 4 * 256 + v.toNat % 32 * 8 := by
  have hv := v.isLt
  have hg := (expand (extract565 v)).g.isLt
  have hb := (expand (extract565 v)).b.isLt
  rw [rgb565ToColour, packRgb]
  simp only [BitVec.toNat_append]
  rw [← Nat.shiftLeft_add_eq_or_of_lt hg, ← Nat.shiftLeft_add_eq_or_of_lt hb]
  simp only [expand, extract565, BitVec.toNat_shiftLeft, BitVec.toNat_setWidth,
    BitVec.extractLsb'_toNat, Nat.shiftLeft_eq, Nat.shiftRight_eq_div_pow]
  omega

theorem rgb565ToColour_eq_ofNat (v : Halfword) : rgb565ToColour v = BitVec.ofNat 24
    (v.toNat / 2048 * 8 * 65536 + v.toNat / 32 % 64 * 4 * 256 + v.toNat % 32 * 8) := by
  rw [← rgb565ToColour_toNat, BitVec.ofNat_toNat, BitVec.setWidth_eq]

/-! ### A frame of RGB565_LE16 -/

/-- A unit of a frame cut to bytes has the byte it had. -/
theorem byteAt_map_cutUnit {us : List Quad} {i : Nat} {u : Quad} (h : us[i]? = some u) :
    byteAt (us.map (cutUnit .bits8)) i = u.setWidth 8 := by
  have hget : (us.map (cutUnit .bits8))[i]? = some (cutUnit .bits8 u) := by simp [h]
  rw [byteAt, unitAt_of_getElem? hget, setWidth_cutUnit_bits8]

/-- R139, in closed arithmetic: the pixel whose bytes are the units `lo` and `hi`. -/
theorem decodeLE16_getElem? {c : CfgRegs} {us : List Quad} {x y : Nat} {lo hi : Quad}
    (hx : x < widthOf c) (hy : y < heightOf c)
    (hlo : us[2 * (x + y * widthOf c)]? = some lo) (hhi : us[2 * (x + y * widthOf c) + 1]? = some hi) :
    (decodeLE16 c (us.map (cutUnit .bits8)))[x + y * widthOf c]? =
      let v := lo.toNat % 256 + 256 * (hi.toNat % 256)
      some (BitVec.ofNat 24 (v / 2048 * 8 * 65536 + v / 32 % 64 * 4 * 256 + v % 32 * 8)) := by
  have hpixel := gridOf_getElem? (fun x y => rgb565ToColour
    (unpack16 (us.map (cutUnit .bits8)) (pixelNumber (widthOf c) x y))) hx hy
  have hv : (unpack16 (us.map (cutUnit .bits8)) (x + y * widthOf c)).toNat =
      lo.toNat % 256 + 256 * (hi.toNat % 256) := by
    rw [unpack16_eq_append, toNat_append_byte, byteAt_map_cutUnit hlo, byteAt_map_cutUnit hhi,
      BitVec.toNat_setWidth, BitVec.toNat_setWidth]
  rw [rgb565ToColour_eq_ofNat, pixelNumber, hv] at hpixel
  exact hpixel

theorem expectedUnits_le16 {c : CfgRegs} (hf : fmtOf c = .rgb565le16) :
    expectedUnits c = 2 * widthOf c * heightOf c := by
  simp only [expectedUnits, hf]

theorem decodeFrame_le16 {c : CfgRegs} (hf : fmtOf c = .rgb565le16) (P : Params) (u : RawFrame) :
    decodeFrame P c u = decodeLE16 c u := by
  simp only [decodeFrame, hf]

/-- Settles O28: the TICK ends as `exec_tick_of_frame` says, and a frame of `2 * W * H` units has both
units of every pixel. -/
theorem tickDecodesLe16 : Obligations.TickDecodesLe16 := by
  intro s us rest hm hf ha hl
  have hresp : respond Config.params (readRequest Config.params s.cfg) (.data us) =
      .data (us.map (cutUnit .bits8)) := by
    simp only [respond, readRequest, hf, unitWidth]
  have hlen : (us.map (cutUnit .bits8)).length = expectedUnits s.cfg := by
    rw [List.length_map, hl, expectedUnits_le16 hf]
  refine ⟨decodeLE16 s.cfg (us.map (cutUnit .bits8)), ?_, length_gridOf _ _ _, fun x hx y hy => ?_⟩
  · rw [exec_tick_of_frame hm ha hresp hlen, decodeFrame_le16 hf, List.length_map]
    rfl
  · have hcell : x + y * widthOf s.cfg < widthOf s.cfg * heightOf s.cfg := cellIndex_lt hx hy
    have hunit (j : Nat) (hj : j < 2 * (widthOf s.cfg * heightOf s.cfg)) : ∃ u, us[j]? = some u :=
      ⟨us[j]'(by rw [hl, Nat.mul_assoc]; exact hj), List.getElem?_eq_getElem _⟩
    obtain ⟨lo, hlo⟩ := hunit (2 * (x + y * widthOf s.cfg)) (by omega)
    obtain ⟨hi, hhi⟩ := hunit (2 * (x + y * widthOf s.cfg) + 1) (by omega)
    exact ⟨lo, hi, hlo, hhi, decodeLE16_getElem? hx hy hlo hhi⟩

/-! ### Both RGB565 packings over one halted target -/

theorem decodeFrame_quad64 {c : CfgRegs} (hf : fmtOf c = .rgb565quad64) (P : Params) (u : RawFrame) :
    decodeFrame P c u = decodeQuad c u := by
  simp only [decodeFrame, hf]

theorem expectedUnits_quad64 {c : CfgRegs} (hf : fmtOf c = .rgb565quad64) :
    expectedUnits c = widthOf c / 4 * heightOf c := by
  simp only [expectedUnits, hf]

/-- The configurations of an RGB565 frame that LOCK accepts, as far as FORMAT and WIDTH go (R186). -/
def IsRgb565 (c : CfgRegs) : Prop :=
  fmtOf c = .rgb565le16 ∨ fmtOf c = .rgb565quad64 ∧ widthOf c % 4 = 0

theorem IsRgb565.fmt_ne_reserved {c : CfgRegs} (hc : IsRgb565 c) : fmtOf c ≠ .reserved := by
  rcases hc with hf | ⟨hf, _⟩ <;> simp [hf]

/-- R161: two bytes per pixel in either packing. -/
theorem frameBytes_rgb565 {c : CfgRegs} (hc : IsRgb565 c) :
    frameBytes c = 2 * widthOf c * heightOf c := by
  rcases hc with hf | ⟨hf, hw⟩
  · rw [frameBytes, expectedUnits_le16 hf, hf, unitWidth, unitBytes, Nat.mul_one]
  · obtain ⟨q, hq⟩ := Nat.dvd_of_mod_eq_zero hw
    rw [frameBytes, expectedUnits_quad64 hf, hf, unitWidth, unitBytes, hq,
      Nat.mul_div_cancel_left q (by omega)]
    ring

section Halted

variable {P : Params} {m : Memory} {c : CfgRegs} {us : RawFrame}

/-- Every byte of the frame can be read. -/
def FrameReadable (P : Params) (m : Memory) (c : CfgRegs) : Prop :=
  ∀ j < frameBytes c, (memRead P m (baseOf P c + j)).isSome

/-- R58: a halted target answers with the frame where every byte of it can be read, and otherwise the read
fails (log 8). -/
theorem respond_halted_cases (P : Params) (m : Memory) (c : CfgRegs) :
    (¬ FrameReadable P m c ∧ respond P (readRequest P c) (.halted m) = .fail) ∨
      (FrameReadable P m c ∧ ∃ us, respond P (readRequest P c) (.halted m) = .data us ∧
        memReadUnits P m (unitWidth (fmtOf c)) (baseOf P c) (expectedUnits c) = some us) := by
  have hread : FrameReadable P m c ↔
      (memReadUnits P m (unitWidth (fmtOf c)) (baseOf P c) (expectedUnits c)).isSome :=
    (memReadUnits_isSome_iff _ _ _).symm
  rw [hread]
  cases h : memReadUnits P m (unitWidth (fmtOf c)) (baseOf P c) (expectedUnits c) with
  | none => exact .inl ⟨by simp, by simp only [respond, readRequest, h]⟩
  | some us => exact .inr ⟨rfl, us, by simp only [respond, readRequest, h], rfl⟩

/-- R54, R55, R164: RGB565_LE16 pixel `j` is made of the bytes at `2j` and `2j + 1` of the frame. -/
theorem unpack16_of_memReadUnits {a n j : Nat} (h : memReadUnits P m .bits8 a n = some us)
    (hj : 2 * j + 1 < n) :
    ∃ lo hi, memRead P m (a + 2 * j) = some lo ∧ memRead P m (a + 2 * j + 1) = some hi ∧
      unpack16 us j = hi ++ lo := by
  have hbyte (i : Nat) (hi : i < n) : memRead P m (a + i) = some (byteAt us i) := by
    obtain ⟨u, hu, hmem⟩ := memReadUnits_byte h hi (k := 0) (by decide)
    rw [byteAt, unitAt_of_getElem? hu, BitVec.setWidth_eq_extractLsb' (by omega)]
    simpa [unitBytes] using hmem
  exact ⟨_, _, hbyte (2 * j) (by omega), hbyte (2 * j + 1) hj, unpack16_eq_append us j⟩

/-- R54, R56, R164: lane `k` of quartet `q` is made of the bytes at `8q + 2k` and `8q + 2k + 1` of the
frame. -/
theorem unpackQuad_of_memReadUnits {a n q k : Nat} (h : memReadUnits P m .bits64 a n = some us)
    (hq : q < n) (hk : k < 4) :
    ∃ lo hi, memRead P m (a + (8 * q + 2 * k)) = some lo ∧
      memRead P m (a + (8 * q + 2 * k) + 1) = some hi ∧ unpackQuad (unitAt us q) k = hi ++ lo := by
  have hbyte (i : Nat) (hi : i < 8) :
      memRead P m (a + (8 * q + i)) = some ((unitAt us q).extractLsb' (8 * i) 8) := by
    obtain ⟨u, hu, hmem⟩ := memReadUnits_byte h hq hi
    rw [unitAt_of_getElem? hu, Nat.mul_comm 8 q, ← Nat.add_assoc]
    exact hmem
  exact ⟨_, _, hbyte (2 * k) (by omega), hbyte (2 * k + 1) (by omega), unpackQuad_eq_append _ k⟩

/-- R131: the lane of a pixel is at twice its pixel number in the frame. -/
theorem pixelToQuad_bytes {w : Nat} (hw : w % 4 = 0) (x y : Nat) :
    8 * (pixelToQuad w x y).1 + 2 * (pixelToQuad w x y).2 = 2 * cellIndex w x y := by
  obtain ⟨q, rfl⟩ := Nat.dvd_of_mod_eq_zero hw
  simp only [pixelToQuad, cellIndex, Nat.mul_div_cancel_left q (show 0 < 4 by omega)]
  rw [Nat.mul_left_comm y 4 q]
  omega

/-- R164: over a halted target, a pixel of either packing shows the halfword at `BASE + 2 * (x + y * W)`,
its low byte first. -/
theorem decodeFrame_halted_pixel (hc : IsRgb565 c)
    (hus : memReadUnits P m (unitWidth (fmtOf c)) (baseOf P c) (expectedUnits c) = some us)
    {x y : Nat} (hx : x < widthOf c) (hy : y < heightOf c) :
    ∃ lo hi, memRead P m (baseOf P c + 2 * cellIndex (widthOf c) x y) = some lo ∧
      memRead P m (baseOf P c + 2 * cellIndex (widthOf c) x y + 1) = some hi ∧
      (decodeFrame P c us)[cellIndex (widthOf c) x y]? = some (rgb565ToColour (hi ++ lo)) := by
  rcases hc with hf | ⟨hf, hw⟩
  · have hcell := cellIndex_lt hx hy
    rw [hf, expectedUnits_le16 hf, Nat.mul_assoc] at hus
    obtain ⟨lo, hi, hlo, hhi, hv⟩ := unpack16_of_memReadUnits hus
      (j := cellIndex (widthOf c) x y) (by omega)
    refine ⟨lo, hi, hlo, hhi, ?_⟩
    rw [decodeFrame_le16 hf, ← hv]
    exact gridOf_getElem? _ hx hy
  · have hunit : (pixelToQuad (widthOf c) x y).1 < widthOf c / 4 * heightOf c :=
      cellIndex_lt (by omega) hy
    rw [hf, expectedUnits_quad64 hf] at hus
    obtain ⟨lo, hi, hlo, hhi, hv⟩ := unpackQuad_of_memReadUnits hus hunit
      (k := (pixelToQuad (widthOf c) x y).2) (Nat.mod_lt _ (by omega))
    rw [pixelToQuad_bytes hw] at hlo hhi
    refine ⟨lo, hi, hlo, hhi, ?_⟩
    rw [decodeFrame_quad64 hf, ← hv]
    exact gridOf_getElem? _ hx hy

/-- Two RGB565 configurations of one region decode the same halted target to one grid. -/
theorem decodeFrame_halted_eq {c' : CfgRegs} {us' : RawFrame} (hc : IsRgb565 c) (hc' : IsRgb565 c')
    (hw : widthOf c' = widthOf c) (hh : heightOf c' = heightOf c) (hb : baseOf P c' = baseOf P c)
    (hus : memReadUnits P m (unitWidth (fmtOf c)) (baseOf P c) (expectedUnits c) = some us)
    (hus' : memReadUnits P m (unitWidth (fmtOf c')) (baseOf P c') (expectedUnits c') = some us') :
    decodeFrame P c us = decodeFrame P c' us' := by
  refine grid_ext (length_decodeFrame hc.fmt_ne_reserved us)
    (by rw [length_decodeFrame hc'.fmt_ne_reserved us', hw, hh]) fun x y hx hy => ?_
  obtain ⟨lo, hi, hlo, hhi, hpix⟩ := decodeFrame_halted_pixel hc hus hx hy
  obtain ⟨lo', hi', hlo', hhi', hpix'⟩ := decodeFrame_halted_pixel hc' hus' (hw ▸ hx) (hh ▸ hy)
  rw [hb, hw, hlo] at hlo'
  rw [hb, hw, hhi] at hhi'
  rw [hw] at hpix'
  obtain rfl := Option.some.inj hlo'
  obtain rfl := Option.some.inj hhi'
  rw [hpix, hpix']

/-- A TICK over one halted target ends alike under two RGB565 configurations of one region: both reads fail,
or both frames decode to one grid. -/
theorem exec_tick_halted_eq {s : State} {rest : List PortAnswer} {c' : CfgRegs} (hm : s.mode = .run)
    (ha : s.host.answers = .halted m :: rest) (hc : IsRgb565 c) (hc' : IsRgb565 c')
    (hw : widthOf c' = widthOf c) (hh : heightOf c' = heightOf c)
    (hb : baseOf Config.params c' = baseOf Config.params c) :
    ∃ t t', exec .tick { s with cfg := c } = .next t ∧ exec .tick { s with cfg := c' } = .next t' ∧
      t.out = t'.out ∧ t.outValid = t'.outValid ∧ t.lastErr = t'.lastErr := by
  have hreadable : FrameReadable Config.params m c' ↔ FrameReadable Config.params m c := by
    rw [FrameReadable, FrameReadable, frameBytes_rgb565 hc, frameBytes_rgb565 hc', hw, hh, hb]
  rcases respond_halted_cases Config.params m c with ⟨hno, hr⟩ | ⟨hyes, us, hr, hus⟩
  · rcases respond_halted_cases Config.params m c' with ⟨_, hr'⟩ | ⟨hyes', _⟩
    · exact ⟨_, _, exec_tick_of_fail (s := { s with cfg := c }) hm ha hr,
        exec_tick_of_fail (s := { s with cfg := c' }) hm ha hr', rfl, rfl, rfl⟩
    · exact absurd (hreadable.1 hyes') hno
  · rcases respond_halted_cases Config.params m c' with ⟨hno', _⟩ | ⟨_, us', hr', hus'⟩
    · exact absurd (hreadable.2 hyes) hno'
    · exact ⟨_, _,
        exec_tick_of_frame (s := { s with cfg := c }) hm ha hr (length_of_memReadUnits hus),
        exec_tick_of_frame (s := { s with cfg := c' }) hm ha hr' (length_of_memReadUnits hus'),
        decodeFrame_halted_eq hc hc' hw hh hb hus hus', rfl, rfl⟩

end Halted

/-- Settles O30: FORMAT is no part of the region a TICK reads, and both packings are RGB565. -/
theorem rgb565PackingsDecodeSameBytes : Obligations.Rgb565PackingsDecodeSameBytes := by
  intro s m rest hm hw ha
  exact exec_tick_halted_eq hm ha (.inl rfl) (.inr ⟨rfl, hw⟩) rfl rfl rfl

end Sys2Proof.Machine

/-! Decoding and encoding (R71 to R77, R81): each is the inverse of the other, the words that decode, and the
step that runs what was decoded. -/

namespace Sys2Proof.Machine

/-! ### The decoder reads an encoding back (R72, R81) -/

/-- The laws of the words of a command, put together. -/
theorem encodingShape (i : Instr) : Laws.EncodingShape.Statement i := by
  cases i with
  | nop => exact Laws.EncodingShape.nop
  | cfgWr idx v => exact Laws.EncodingShape.cfgWr idx v
  | cfgRd idx => exact Laws.EncodingShape.cfgRd idx
  | lock => exact Laws.EncodingShape.lock
  | tick => exact Laws.EncodingShape.tick
  | outRd x y => exact Laws.EncodingShape.outRd x y
  | statRd idx => exact Laws.EncodingShape.statRd idx

/-- R74: the IDX of a command is legal for its OP exactly when the command is well-formed. -/
theorem idxLegal_opOf_idxOf (i : Instr) : idxLegal (opOf i) (idxOf i) = i.wf := by
  obtain ⟨_, _, hidx⟩ := encodingShape i
  rwa [fieldOp_encode, fieldIdx_encode] at hidx

/-- R77: the low half of the DATA of an OUT_RD is x. -/
theorem dataOf_outRd_low (x y : Halfword) : (dataOf (.outRd x y)).extractLsb' 0 16 = x :=
  BitVec.extractLsb'_append_eq_right

/-- R77: the high half of the DATA of an OUT_RD is y. -/
theorem dataOf_outRd_high (x y : Halfword) : (dataOf (.outRd x y)).extractLsb' 16 16 = y :=
  BitVec.extractLsb'_append_eq_left

/-- R72, R76, R77: a command is what its own OP, IDX and DATA select. -/
theorem instrOfOp_opOf (i : Instr) : instrOfOp (opOf i) (idxOf i) (dataOf i) = some i := by
  cases i with
  | nop => rfl
  | cfgWr idx v => rfl
  | cfgRd idx => rfl
  | lock => rfl
  | tick => rfl
  | outRd x y =>
    change some (Instr.outRd _ _) = _
    rw [dataOf_outRd_low, dataOf_outRd_high]
  | statRd idx => rfl

theorem decode_encode {i : Instr} (hi : i.wf = true) : decode (encode i) = .ok i := by
  rw [decode_eq_ok_iff, fieldOp_encode, fieldIdx_encode, idxLegal_opOf_idxOf]
  exact ⟨fieldRsvd_encode i, instrOfOp_opOf i, hi⟩

/-- Settles O1: the three fields of the encoding are those the decoder asks for. -/
theorem decodeInvertsEncode : Obligations.DecodeInvertsEncode := fun _ hi => decode_encode hi

/-- Settles O5: each word is the encoding of its command. -/
theorem decodeSampleWords : Obligations.DecodeSampleWords := by
  have sample {t : Transaction} {i : Instr} (ht : encode i = t) (hi : i.wf = true) : decode t = .ok i :=
    ht ▸ decode_encode hi
  exact ⟨sample rfl rfl, sample rfl rfl, sample rfl rfl, sample rfl rfl, sample rfl rfl, sample rfl rfl,
    sample rfl rfl⟩

/-! ### The words that decode (R72, R74, R75) -/

/-- R74, as the word conditions give it; the case split is that of `idxLegal`. -/
theorem idxLegal_of_wellFormedWord {cmd : Word} (h : WellFormedWord cmd) :
    idxLegal (fieldOp cmd) (fieldIdx cmd) = true := by
  obtain ⟨hop, _, hcfg, hstat, hunused⟩ := h
  rw [← fieldOp_toNat] at hop hcfg hstat hunused
  rw [← fieldIdx_toNat] at hcfg hstat hunused
  unfold idxLegal
  split
  case h_1 h1 => exact decide_eq_true (hcfg (.inl h1))
  case h_2 h2 => exact decide_eq_true (hcfg (.inr h2))
  case h_3 h6 => exact decide_eq_true (hstat h6)
  case h_4 h1 h2 h6 =>
    have hother : ¬ (fieldOp cmd).toNat = 1 ∧ ¬ (fieldOp cmd).toNat = 2 ∧ ¬ (fieldOp cmd).toNat = 6 :=
      ⟨h1, h2, h6⟩
    exact decide_eq_true (BitVec.eq_of_toNat_eq (hunused (by omega)))

theorem decode_of_wellFormedWord {t : Transaction} (h : WellFormedWord t.cmd) :
    ∃ i, decode t = .ok i := by
  have hrsvd : fieldRsvd t.cmd = 0 := BitVec.eq_of_toNat_eq (by rw [fieldRsvd_toNat]; exact h.2.1)
  cases hi : instrOfOp (fieldOp t.cmd) (fieldIdx t.cmd) t.data with
  | none =>
    have hop := (instrOfOp_eq_none_iff _ _ _).1 hi
    rw [fieldOp_toNat] at hop
    exact absurd h.1 hop.not_ge
  | some i => exact ⟨i, (decode_eq_ok_iff t i).2 ⟨hrsvd, hi, idxLegal_of_wellFormedWord h⟩⟩

/-- Settles O2: the conditions on the word are those under which `decode` takes its last branch. -/
theorem decodeAcceptsExactlyWellFormedWords : Obligations.DecodeAcceptsExactlyWellFormedWords :=
  fun _ => ⟨fun ⟨_, hi⟩ => wellFormedWord_of_decode hi, decode_of_wellFormedWord⟩

/-! ### What a decoded command says of its transaction (R71, R76, R77) -/

section OfDecode

variable {t : Transaction} {i : Instr}

/-- What the decoder has read, with OP as that of the command it answered. -/
theorem fields_of_decode (h : decode t = .ok i) :
    t.cmd = (0 : BitVec 20) ++ fieldIdx t.cmd ++ opOf i ∧ instrOfOp (opOf i) (fieldIdx t.cmd) t.data = some i ∧
      idxLegal (opOf i) (fieldIdx t.cmd) = true := by
  obtain ⟨hrsvd, hinstr, hidx⟩ := (decode_eq_ok_iff t i).1 h
  rw [opOf_of_instrOfOp hinstr, ← hrsvd]
  exact ⟨cmd_eq_fields t.cmd, hinstr, hidx⟩

/-- R72, R74: IDX is that of the word, which is 0 where the command does not use it. -/
theorem idxOf_of_decode (h : decode t = .ok i) : idxOf i = fieldIdx t.cmd := by
  obtain ⟨_, hinstr, hidx⟩ := fields_of_decode h
  cases i with
  | nop | lock | tick | outRd => exact (of_decide_eq_true hidx).symm
  | cfgWr | cfgRd | statRd => cases hinstr; rfl

/-- R71, R81: a command word that decodes is rebuilt from OP and IDX. -/
theorem encode_cmd_of_decode (h : decode t = .ok i) : (encode i).cmd = t.cmd := by
  rw [(fields_of_decode h).1, ← idxOf_of_decode h]
  rfl

theorem wf_of_decode (h : decode t = .ok i) : i.wf = true := by
  obtain ⟨_, _, hidx⟩ := fields_of_decode h
  rwa [← idxOf_of_decode h, idxLegal_opOf_idxOf] at hidx

/-- R76: the value of a CFG_WR. -/
theorem value_of_decode {idx : BitVec 8} {v : Word} (h : decode t = .ok (.cfgWr idx v)) : v = t.data := by
  obtain ⟨_, hinstr, _⟩ := fields_of_decode h
  cases hinstr
  rfl

/-- R77: the coordinates of an OUT_RD. -/
theorem coordinates_of_decode {x y : Halfword} (h : decode t = .ok (.outRd x y)) :
    x = t.data.extractLsb' 0 16 ∧ y = t.data.extractLsb' 16 16 := by
  obtain ⟨_, hinstr, _⟩ := fields_of_decode h
  cases hinstr
  exact ⟨rfl, rfl⟩

end OfDecode

/-- Settles O3: OP and IDX of the command are those of the word, and its RSVD is 0. -/
theorem encodeRecoversDecodedWord : Obligations.EncodeRecoversDecodedWord := by
  intro t i h
  refine ⟨wf_of_decode h, encode_cmd_of_decode h, ?_⟩
  rintro idx v rfl
  exact value_of_decode h

/-- Settles O4: the two halfwords, as numbers. -/
theorem outRdOperandIsTwoHalfwordsOfData : Obligations.OutRdOperandIsTwoHalfwordsOfData := by
  intro t x y h
  obtain ⟨rfl, rfl⟩ := coordinates_of_decode h
  have hdata := t.data.isLt
  simp only [BitVec.extractLsb'_toNat, Nat.shiftRight_eq_div_pow]
  omega

/-! ### The step that runs a decoded command (R70, R180) -/

/-- An IDX that is illegal for its command names no register (R74). -/
theorem exec_of_not_wf {i : Instr} (hi : i.wf = false) (s : State) :
    exec i s = .next (failCmd .cmdIllegal s) := by
  cases i with
  | nop | lock | tick | outRd => cases hi
  | cfgWr idx v => exact exec_cfgWr_of_illegal (cfgRegOfIdx_eq_none (by simpa [Instr.wf] using hi)) v
  | cfgRd idx => exact exec_cfgRd_of_illegal (cfgRegOfIdx_eq_none (by simpa [Instr.wf] using hi))
  | statRd idx => exact exec_statRd_of_illegal (statRegOfIdx_eq_none (by simpa [Instr.wf] using hi))

/-- Settles O10: no register is found, and STATE is looked at only after that. -/
theorem illegalIdxFailsBeforeStateCheck : Obligations.IllegalIdxFailsBeforeStateCheck :=
  fun _ s hi => exec_of_not_wf hi s

section Step

variable {s : State} {rest : List HostEvent} {i : Instr}

theorem popEvent_of_cons {ev : HostEvent} (he : s.host.events = ev :: rest) :
    popEvent s = { s with host := { s.host with events := rest } } := by
  rw [popEvent, he, List.tail_cons]

theorem step_of_decode {t : Transaction} (he : s.host.events = .command t :: rest)
    (hd : decode t = .ok i) : step s = exec i (popEvent s) := by
  simp only [step, nextEvent, he, List.head?_cons, hd]

end Step

/-- Settles O6: the event taken is the first of the list. -/
theorem stepRunsDecodedInstruction : Obligations.StepRunsDecodedInstruction := by
  intro s t rest i he hd
  rw [step_of_decode he hd, popEvent_of_cons he]

end Sys2Proof.Machine

/-! A frame of RGB565_QUAD64 (R87, R131, R134, R140). -/

namespace Sys2Proof.Machine

/-- R52: a unit of 64 bits is delivered as it is. -/
theorem map_cutUnit_bits64 (us : List Quad) : us.map (cutUnit .bits64) = us := List.map_id us

/-- R134: lane `k` as a number. -/
theorem unpackQuad_toNat (u : Quad) (k : Nat) :
    (unpackQuad u k).toNat = u.toNat / 2 ^ (16 * k) % 65536 := by
  rw [unpackQuad, BitVec.extractLsb'_toNat, Nat.shiftRight_eq_div_pow]

/-- R131: with W mod 4 = 0, the unit of a pixel is one of the frame's. -/
theorem pixelToQuad_lt {w h x y : Nat} (hw : w % 4 = 0) (hx : x < w) (hy : y < h) :
    (pixelToQuad w x y).1 < w / 4 * h :=
  cellIndex_lt (by omega) hy

/-- R24, R25: W * H is less than 2^32, so LAST_LEN holds the length of such a frame unsaturated (R35). -/
theorem saturate32_quad64 (c : CfgRegs) :
    saturate32 (widthOf c / 4 * heightOf c) = BitVec.ofNat 32 (widthOf c / 4 * heightOf c) := by
  have hlen : widthOf c / 4 * heightOf c ≤ 16384 * 65536 :=
    Nat.mul_le_mul (by have := widthOf_lt c; omega) (heightOf_lt c).le
  rw [saturate32, Nat.min_eq_left (by omega)]

/-- R140, in closed arithmetic: the pixel whose unit is `u`. -/
theorem decodeQuad_getElem? {c : CfgRegs} {us : List Quad} {x y : Nat} {u : Quad}
    (hx : x < widthOf c) (hy : y < heightOf c) (hu : us[x / 4 + y * (widthOf c / 4)]? = some u) :
    (decodeQuad c us)[x + y * widthOf c]? =
      let v := u.toNat / 2 ^ (16 * (x % 4)) % 65536
      some (BitVec.ofNat 24 (v / 2048 * 8 * 65536 + v / 32 % 64 * 4 * 256 + v % 32 * 8)) := by
  have hpixel := gridOf_getElem? (fun x y => rgb565ToColour
    (unpackQuad (unitAt us (pixelToQuad (widthOf c) x y).1) (pixelToQuad (widthOf c) x y).2)) hx hy
  rw [pixelToQuad, unitAt_of_getElem? hu, rgb565ToColour_eq_ofNat, unpackQuad_toNat] at hpixel
  exact hpixel

/-- Settles O29: the TICK ends as `exec_tick_of_frame` says, and a frame of `W / 4 * H` units has the unit
of every pixel. -/
theorem tickDecodesQuad64 : Obligations.TickDecodesQuad64 := by
  intro s us rest hm hf hw ha hl
  have hresp : respond Config.params (readRequest Config.params s.cfg) (.data us) = .data us := by
    simp only [respond, readRequest, hf, unitWidth, map_cutUnit_bits64]
  have hlen : us.length = expectedUnits s.cfg := by rw [hl, expectedUnits_quad64 hf]
  refine ⟨decodeQuad s.cfg us, ?_, length_gridOf _ _ _, fun x hx y hy => ?_⟩
  · rw [exec_tick_of_frame hm ha hresp hlen, decodeFrame_quad64 hf, hl, saturate32_quad64]
  · have hunit : x / 4 + y * (widthOf s.cfg / 4) < us.length := by
      rw [hl]
      exact pixelToQuad_lt hw hx hy
    exact ⟨_, List.getElem?_eq_getElem hunit, decodeQuad_getElem? hx hy (List.getElem?_eq_getElem hunit)⟩

end Sys2Proof.Machine

/-! The commands of CONFIGURE, run from reset (R82, R254). -/

namespace Sys2Proof.Machine

/-! ### LOCK, in terms of its checks (R186) -/

theorem firstFailingCheck_eq_zero_iff (P : Params) (c : CfgRegs) :
    firstFailingCheck P c = 0 ↔ ∀ k, ¬ CheckFails P c k := by
  refine ⟨fun hz => ?_, firstFailingCheck_of_passes⟩
  rcases firstFailingCheck_spec P c with ⟨_, hall⟩ | ⟨hf, _⟩
  · exact hall
  · rw [hz] at hf
    exact absurd (checkFails_range hf).1 (by decide)

@[simp] theorem lockCfg_lastErr (P : Params) (s : State) :
    (lockCfg P s).lastErr = if firstFailingCheck P s.cfg = 0 then .none else .unsupportedFormat := by
  rcases lockCfg_cases P s with ⟨hz, h⟩ | ⟨hz, h⟩
  · rw [h, if_pos hz]; rfl
  · rw [h, if_neg hz]; rfl

/-! ### A run of encoded commands in CONFIG -/

/-- The block is in CONFIG with the registers `c`, and the host will do `rest`. -/
structure Configuring (c : CfgRegs) (rest : List HostEvent) (s : State) : Prop where
  mode : s.mode = .config
  cfg : s.cfg = c
  events : s.host.events = rest

/-- R252, R264: so a run starts. -/
theorem configuring_startWith (events : List HostEvent) (answers : List PortAnswer) :
    Configuring CfgRegs.reset events (startWith events answers) := ⟨rfl, rfl, rfl⟩

section Run

variable {c : CfgRegs} {rest : List HostEvent} {s t : State} {i : Instr}

/-- A step on an encoded command that executes as `exec` says. -/
theorem run_succ_of_encode (he : s.host.events = .command (encode i) :: rest) (hi : i.wf = true)
    (hx : exec i (popEvent s) = .next t) (n : Nat) :
    Sys2Proof.core.run (n + 1) s = Sys2Proof.core.run n t :=
  run_succ_of_next ((step_of_decode he (decode_encode hi)).trans hx) n

/-- R182: a CFG_WR writes its register and leaves the block in CONFIG. -/
theorem Configuring.run_cfgWr {idx : BitVec 8} {v : Word}
    (hs : Configuring c (.command (encode (.cfgWr idx v)) :: rest) s) {r : CfgReg}
    (hr : cfgRegOfIdx idx = some r) (n : Nat) :
    ∃ t, Sys2Proof.core.run (n + 1) s = Sys2Proof.core.run n t ∧
      Configuring (cfgWrite Config.params c r v) rest t := by
  have hwf : (Instr.cfgWr idx v).wf = true :=
    decide_eq_true ((cfgRegOfIdx_isSome_iff idx).1 (by rw [hr]; rfl))
  have hx := exec_cfgWr_of_config (s := popEvent s) hs.mode hr v
  exact ⟨_, run_succ_of_encode hs.events hwf hx n, hs.mode, by simp [hs.cfg], by simp [hs.events]⟩

/-- R186: a LOCK ends in RUN, or in FATAL when a check fails. -/
theorem Configuring.run_lock (hs : Configuring c (.command (encode .lock) :: rest) s) (n : Nat) :
    ∃ t, Sys2Proof.core.run (n + 1) s = Sys2Proof.core.run n t ∧ t.cfg = c ∧
      ((∀ k, ¬ CheckFails Config.params c k) → t.mode = .run ∧ t.lastErr = .none) ∧
      ((∃ k, CheckFails Config.params c k) → t.mode = .fatal ∧ t.lastErr = .unsupportedFormat) := by
  have hx := exec_lock_of_config (s := popEvent s) hs.mode
  refine ⟨_, run_succ_of_encode hs.events rfl hx n, by simp [hs.cfg], fun hpass => ?_, fun hfail => ?_⟩
  · have hz := (firstFailingCheck_eq_zero_iff _ _).2 hpass
    simp [hs.cfg, hz]
  · have hnz : firstFailingCheck Config.params c ≠ 0 := fun hz =>
      hfail.elim ((firstFailingCheck_eq_zero_iff _ _).1 hz)
    rw [lockCfg_mode, lockCfg_lastErr, popEvent_cfg, hs.cfg, if_neg hnz, if_neg hnz]
    exact ⟨rfl, rfl⟩

end Run

/-! ### CONFIGURE (R82) -/

/-- The registers that CONFIGURE leaves, from their reset values. -/
def configured (P : Params) (w h fmt base : Word) : CfgRegs :=
  cfgWrite P (cfgWrite P (cfgWrite P (cfgWrite P CfgRegs.reset .width w) .height h) .format fmt) .base base

section Configured

variable (P : Params) (w h fmt base : Word)

theorem widthOf_configured : widthOf (configured P w h fmt base) = w.toNat % 65536 := by
  change ((fieldOf P .width w).setWidth 16).toNat = _
  rw [BitVec.toNat_setWidth, fieldOf_toNat]
  exact Nat.mod_mod _ _

theorem heightOf_configured : heightOf (configured P w h fmt base) = h.toNat % 65536 := by
  change ((fieldOf P .height h).setWidth 16).toNat = _
  rw [BitVec.toNat_setWidth, fieldOf_toNat]
  exact Nat.mod_mod _ _

theorem format_configured : (configured P w h fmt base).format.toNat = fmt.toNat % 4 :=
  fieldOf_toNat P .format fmt

theorem baseOf_configured : baseOf P (configured P w h fmt base) = base.toNat % 2 ^ P.addrBits := by
  change ((fieldOf P .base base).setWidth P.addrBits).toNat = _
  rw [BitVec.toNat_setWidth, fieldOf_toNat]
  exact Nat.mod_mod _ _

theorem fpsOf_configured : fpsOf (configured P w h fmt base) = 60 := fpsOf_reset

end Configured

/-- Settles O60: four CFG_WR make the registers those of `configured`, and LOCK decides between RUN and
FATAL. -/
theorem configureBringsBlockIntoService : Obligations.ConfigureBringsBlockIntoService := by
  intro w h fmt base answers
  have h0 := configuring_startWith ((configureCmds w h fmt base).map fun i => .command (encode i)) answers
  obtain ⟨s1, e1, h1⟩ := h0.run_cfgWr (r := .width) rfl 4
  obtain ⟨s2, e2, h2⟩ := h1.run_cfgWr (r := .height) rfl 3
  obtain ⟨s3, e3, h3⟩ := h2.run_cfgWr (r := .format) rfl 2
  obtain ⟨s4, e4, h4⟩ := h3.run_cfgWr (r := .base) rfl 1
  obtain ⟨t, e5, hcfg, hpass, hfail⟩ := h4.run_lock 0
  replace hcfg : t.cfg = configured Config.params w h fmt base := hcfg
  refine ⟨t, e1.trans (e2.trans (e3.trans (e4.trans (e5.trans (run_zero t))))), ?_⟩
  rw [hcfg]
  exact ⟨widthOf_configured _ _ _ _ _, heightOf_configured _ _ _ _ _, format_configured _ _ _ _ _,
    baseOf_configured _ _ _ _ _, fpsOf_configured _ _ _ _ _, rfl, rfl, rfl, hpass, hfail⟩

end Sys2Proof.Machine

/-! Mono1bpp with the corrected row mapping (R100 to R105, R109): the visits, the decoder pixel by pixel, and
the TICK that runs it. -/

namespace Sys2Proof.Machine

/-! ### The visits under the corrected mapping (R104, R105, R166) -/

theorem mem_monoVisits {w pages : Nat} {v : Visit} :
    v ∈ monoVisits w pages ↔ v.p < pages ∧ v.c < w ∧ v.b < 8 := by
  obtain ⟨p, c, b⟩ := v
  simp [monoVisits]

/-- R105: the visit that produces a pixel. -/
theorem scanMapCorrected_eq_iff {v : Visit} {x y : Nat} (hb : v.b < 8) :
    scanMapCorrected v = (x, y) ↔ v = ⟨y / 8, x, y % 8⟩ := by
  obtain ⟨p, c, b⟩ := v
  simp only [scanMapCorrected, Prod.mk.injEq, Visit.mk.injEq] at hb ⊢
  omega

/-- R102, R103: `UnitToPage` takes the unit of a pixel back to its page and column. -/
theorem unitToPage_pixelToUnit {w x : Nat} (hx : x < w) (y : Nat) :
    unitToPage w (pixelToUnit w x y).1 = (y / 8, x) := by
  simp only [unitToPage, pixelToUnit, Nat.add_mul_div_right x _ (Nat.zero_lt_of_lt hx),
    Nat.div_eq_of_lt hx, Nat.zero_add, Nat.add_mul_mod_self_right, Nat.mod_eq_of_lt hx]

/-- Settles O35: a visit is its page, column and bit, and division by 8 recovers page and bit from the
scanline. -/
theorem correctedVisitsCoverGridOnce : Obligations.CorrectedVisitsCoverGridOnce := by
  intro w pages
  have named {x y : Nat} (hx : x < w) (hy : y < 8 * pages) :
      ⟨y / 8, x, y % 8⟩ ∈ monoVisits w pages ∧ scanMapCorrected ⟨y / 8, x, y % 8⟩ = (x, y) := by
    have hb : y % 8 < 8 := Nat.mod_lt y (by omega)
    exact ⟨mem_monoVisits.2 ⟨Nat.div_lt_of_lt_mul hy, hx, hb⟩, (scanMapCorrected_eq_iff hb).2 rfl⟩
  refine ⟨fun x y hx hy => ⟨_, named hx hy, ?_⟩, fun x y => named, fun v hv => ?_⟩
  · rintro v ⟨hv, hmap⟩
    obtain ⟨_, _, hb⟩ := mem_monoVisits.1 hv
    exact (scanMapCorrected_eq_iff hb).1 hmap
  · obtain ⟨hp, hc, hb⟩ := mem_monoVisits.1 hv
    have hdiv : (v.b + 8 * v.p) / 8 = v.p := by omega
    refine ⟨hc, show v.b + 8 * v.p < 8 * pages by omega, ?_, show (v.b + 8 * v.p) % 8 = v.b by omega⟩
    exact (unitToPage_pixelToUnit hc _).trans (Prod.ext hdiv rfl)

/-! ### The bits of a frame (R101) -/

/-- A bit of a byte is that bit of the unit that carries it. -/
theorem bitX_setWidth (v : Quad) {b : Nat} (hb : b < 8) : bitX (v.setWidth 8) b = v.getLsbD b := by
  simp [bitX, hb]

@[simp] theorem bitX_zero (b : Nat) : bitX 0 b = false := BitVec.getLsbD_zero

/-- A unit of an all-zero frame. -/
theorem byteAt_of_all_zero {u : RawFrame} (hu : ∀ v ∈ u, v = 0) {i : Nat} (hi : i < u.length) :
    byteAt u i = 0 := by
  rw [byteAt, unitAt_of_getElem? (List.getElem?_eq_getElem hi), hu _ (List.getElem_mem hi)]
  rfl

/-- A bit of a unit that was replaced in an all-zero frame, and of any other. -/
theorem bitX_byteAt_set_replicate {n i j k : Nat} (b : Nat) (hj : j < n) (hk : k < 8) :
    bitX (byteAt ((List.replicate n (0 : Quad)).set i (BitVec.ofNat 64 (2 ^ b))) j) k =
      decide (j = i ∧ k = b) := by
  by_cases hji : j = i
  · subst hji
    have hget : ((List.replicate n (0 : Quad)).set j (BitVec.ofNat 64 (2 ^ b)))[j]? =
        some (BitVec.ofNat 64 (2 ^ b)) := List.getElem?_set_self (by simpa using hj)
    rw [byteAt, unitAt_of_getElem? hget, bitX_setWidth _ hk, BitVec.getLsbD_ofNat, Nat.testBit_two_pow]
    simp [show k < 64 by omega, eq_comm]
  · have hget : ((List.replicate n (0 : Quad)).set i (BitVec.ofNat 64 (2 ^ b)))[j]? = some 0 := by
      rw [List.getElem?_set_ne (Ne.symm hji), List.getElem?_replicate, if_pos hj]
    rw [byteAt, unitAt_of_getElem? hget, bitX_setWidth _ hk]
    simp [hji]

/-! ### The corrected decoder, pixel by pixel (R109) -/

theorem decodeMonoCorrected_getElem? (u : RawFrame) {c : CfgRegs} {x y : Nat} (hx : x < widthOf c)
    (hy : y < heightOf c) :
    (decodeMonoCorrected c u)[cellIndex (widthOf c) x y]? =
      some (colourOf c (bitX (byteAt u (cellIndex (widthOf c) x (y / 8))) (y % 8))) :=
  gridOf_getElem? _ hx hy

@[simp] theorem length_decodeMonoCorrected (c : CfgRegs) (u : RawFrame) :
    (decodeMonoCorrected c u).length = widthOf c * heightOf c := length_gridOf _ _ _

/-- R100: the unit of a pixel is one of the frame's. -/
theorem monoUnit_lt {c : CfgRegs} {x y : Nat} (h8 : heightOf c % 8 = 0) (hx : x < widthOf c)
    (hy : y < heightOf c) : cellIndex (widthOf c) x (y / 8) < widthOf c * pagesOf c :=
  cellIndex_lt hx (Nat.div_lt_of_lt_mul (heightOf_eq_of_mod h8 ▸ hy))

/-- Settles O39: the pixel whose unit is `i` and whose bit is `b` is that of R103. -/
theorem singleBitLightsExactlyOnePixel : Obligations.SingleBitLightsExactlyOnePixel := by
  intro c i b x y h8 _ hb hx hy
  have hpixel : cellIndex (widthOf c) x (y / 8) = i ∧ y % 8 = b ↔
      x = i % widthOf c ∧ y = b + 8 * (i / widthOf c) := by
    have hcell := cellIndex_inj (y := y / 8) (y' := i / widthOf c) hx
      (Nat.mod_lt i (Nat.zero_lt_of_lt hx))
    rw [cellIndex_mod_div] at hcell
    rw [hcell]
    omega
  have hdecode := decodeMonoCorrected_getElem?
    ((List.replicate (widthOf c * pagesOf c) (0 : Quad)).set i (BitVec.ofNat 64 (2 ^ b))) hx hy
  rw [bitX_byteAt_set_replicate b (monoUnit_lt h8 hx hy) (Nat.mod_lt y (by omega)), colourOf] at hdecode
  simp only [decide_eq_true_eq, hpixel] at hdecode
  exact hdecode

/-! ### A TICK in Mono1bpp (R190) -/

theorem expectedUnits_mono {c : CfgRegs} (hf : fmtOf c = .mono1bpp) :
    expectedUnits c = widthOf c * pagesOf c := by
  simp only [expectedUnits, hf]

theorem decodeFrame_mono {c : CfgRegs} (hf : fmtOf c = .mono1bpp) (P : Params) (u : RawFrame) :
    decodeFrame P c u = if legacyRows c then decodeMonoLegacy P c u else decodeMonoCorrected c u := by
  simp only [decodeFrame, hf]

/-- R24, R25: LAST_LEN holds the length of a Mono1bpp frame unsaturated (R35). -/
theorem saturate32_mono (c : CfgRegs) :
    saturate32 (widthOf c * pagesOf c) = BitVec.ofNat 32 (widthOf c * pagesOf c) := by
  have hlen : widthOf c * pagesOf c ≤ 65536 * 8192 :=
    Nat.mul_le_mul (widthOf_lt c).le (by have := heightOf_lt c; unfold pagesOf; omega)
  rw [saturate32, Nat.min_eq_left (by omega)]

/-- A TICK whose decided answer has as many units as a Mono1bpp frame. -/
theorem exec_tick_mono {s : State} {us : List Quad} {rest : List PortAnswer} (hm : s.mode = .run)
    (hf : fmtOf s.cfg = .mono1bpp) (ha : s.host.answers = .data us :: rest)
    (hl : us.length = widthOf s.cfg * pagesOf s.cfg) :
    exec .tick s = .next { s with
      out := decodeFrame Config.params s.cfg (us.map (cutUnit .bits8)), outValid := true
      lastErr := .none, lastLen := BitVec.ofNat 32 us.length
      host := { s.host with
        answers := rest
        requests := s.host.requests ++ [readRequest Config.params s.cfg]
        results := s.host.results ++ [0] } } := by
  have hresp : respond Config.params (readRequest Config.params s.cfg) (.data us) =
      .data (us.map (cutUnit .bits8)) := by
    simp only [respond, readRequest, hf, unitWidth]
  have hlen : (us.map (cutUnit .bits8)).length = expectedUnits s.cfg := by
    rw [List.length_map, hl, expectedUnits_mono hf]
  rw [exec_tick_of_frame hm ha hresp hlen, List.length_map, hl, saturate32_mono]

/-- A bit of a unit of the answer, as the decoder sees it. -/
theorem bitX_byteAt_map_cutUnit {us : List Quad} {i b : Nat} {u : Quad} (hu : us[i]? = some u)
    (hb : b < 8) : bitX (byteAt (us.map (cutUnit .bits8)) i) b = u.getLsbD b := by
  rw [byteAt_map_cutUnit hu, bitX_setWidth u hb]

/-- Settles O25: the TICK ends as `exec_tick_mono` says, and a frame of `W * pages` units has the unit of
every pixel. -/
theorem tickDecodesMonoCorrected : Obligations.TickDecodesMonoCorrected := by
  intro s us rest hm hf hmap h8 ha hl
  refine ⟨_, exec_tick_mono hm hf ha hl, ?_⟩
  rw [decodeFrame_mono hf, legacyRows, hmap, if_neg Bool.false_ne_true]
  refine ⟨length_decodeMonoCorrected _ _, fun x hx y hy => ?_⟩
  have hunit : cellIndex (widthOf s.cfg) x (y / 8) < us.length := hl ▸ monoUnit_lt h8 hx hy
  have hdecode := decodeMonoCorrected_getElem? (us.map (cutUnit .bits8)) hx hy
  rw [bitX_byteAt_map_cutUnit (List.getElem?_eq_getElem hunit) (Nat.mod_lt y (by omega))] at hdecode
  exact ⟨_, List.getElem?_eq_getElem hunit, hdecode⟩

end Sys2Proof.Machine

/-! Mono1bpp with the legacy row mapping (R106, R107, R110): the painter as what it leaves in each pixel, page
by page, and what follows for the whole frame (R111, R112). -/

namespace Sys2Proof.Machine

/-! ### One pixel under the painter (R107)

The painter writes FG and BG only, so what the visits do to a pixel is said of one bit: whether it is lit. -/

/-- The bit a visit takes from the frame (R107 step 2). -/
def visitBit (c : CfgRegs) (u : RawFrame) (v : Visit) : Bool :=
  bitX (byteAt u (cellIndex (widthOf c) v.c v.p)) v.b

/-- How a visit with bit `s` changes whether the pixel it lands on is lit (R107 step 4). -/
def collide : LegacyCollision → Bool → Bool → Bool
  | .lastWins, _, s => s
  | .or, lit, s => lit || s

@[simp] theorem collide_false_left (k : LegacyCollision) (s : Bool) : collide k false s = s := by
  cases k <;> rfl

theorem lit_or_bit_of_collide {k : LegacyCollision} {lit s : Bool} (h : collide k lit s = true) :
    lit = true ∨ s = true := by
  cases k with
  | lastWins => exact .inr h
  | or => simpa [collide] using h

/-- A clear bit under OR changes nothing. -/
theorem collide_of_clear_or {k : LegacyCollision} {s : Bool} (h : k = .or ∧ s = false) (lit : Bool) :
    collide k lit s = lit := by
  obtain ⟨rfl, rfl⟩ := h
  exact Bool.or_false lit

/-- Any other bit decides alone. -/
theorem collide_of_not_clear_or {k : LegacyCollision} {s : Bool} (h : ¬ (k = .or ∧ s = false)) (lit : Bool) :
    collide k lit s = s := by
  cases k with
  | lastWins => rfl
  | or =>
    obtain rfl : s = true := by simpa using h
    exact Bool.or_true lit

section Pixel

variable (P : Params) (c : CfgRegs) (u : RawFrame) (x y : Nat)

/-- Whether the pixel `(x, y)` is lit after a visit, if it was `lit` before. -/
def litAfterVisit (lit : Bool) (v : Visit) : Bool :=
  if scanMapLegacy (pagesOf c) v = (x, y) then collide P.collision lit (visitBit c u v) else lit

/-- R107: a visit on the grid writes the colour of its bit, but for a clear bit under OR. -/
theorem paintVisit_eq (g : Grid) (v : Visit) :
    paintVisit P c u g v =
      if (scanMapLegacy (pagesOf c) v).2 < heightOf c ∧ ¬ (P.collision = .or ∧ visitBit c u v = false) then
        g.set (cellIndex (widthOf c) (scanMapLegacy (pagesOf c) v).1 (scanMapLegacy (pagesOf c) v).2)
          (colourOf c (visitBit c u v))
      else g := by
  simp only [paintVisit]
  by_cases hy : (scanMapLegacy (pagesOf c) v).2 < heightOf c
  · rw [if_pos hy]
    cases P.collision with
    | lastWins => simp [hy, visitBit, cellIndex]
    | or =>
      change (if visitBit c u v then _ else g) = _
      cases visitBit c u v with
      | true => simp [hy, colourOf]
      | false => simp
  · rw [if_neg hy, if_neg fun h => hy h.1]

variable {P c u x y}

/-- `litAfterVisit` is what a visit does to a pixel of the grid. -/
theorem paintVisit_getElem? {g : Grid} {lit : Bool} {v : Visit} (hx : x < widthOf c) (hy : y < heightOf c)
    (hv : v.c < widthOf c) (hg : g[cellIndex (widthOf c) x y]? = some (colourOf c lit)) :
    (paintVisit P c u g v)[cellIndex (widthOf c) x y]? =
      some (colourOf c (litAfterVisit P c u x y lit v)) := by
  rw [paintVisit_eq, litAfterVisit]
  by_cases hhit : scanMapLegacy (pagesOf c) v = (x, y)
  · rw [if_pos hhit, hhit]
    split
    next h => rw [List.getElem?_set_self (List.getElem?_eq_some_iff.1 hg).1, collide_of_not_clear_or h.2]
    next h => rw [hg, collide_of_clear_or (by simpa [hy] using h)]
  · have hne : cellIndex (widthOf c) (scanMapLegacy (pagesOf c) v).1 (scanMapLegacy (pagesOf c) v).2 ≠
        cellIndex (widthOf c) x y := fun h =>
      hhit (Prod.ext_iff.2 ((cellIndex_inj hv hx).1 h))
    rw [if_neg hhit]
    split
    · rw [List.getElem?_set_ne hne, hg]
    · exact hg

theorem foldl_paintVisit_getElem? (hx : x < widthOf c) (hy : y < heightOf c) :
    ∀ (vs : List Visit) (g : Grid) (lit : Bool), (∀ v ∈ vs, v.c < widthOf c) →
      g[cellIndex (widthOf c) x y]? = some (colourOf c lit) →
      (vs.foldl (paintVisit P c u) g)[cellIndex (widthOf c) x y]? =
        some (colourOf c (vs.foldl (litAfterVisit P c u x y) lit))
  | [], _, _, _, hg => hg
  | v :: vs, _, _, hvs, hg =>
    foldl_paintVisit_getElem? hx hy vs _ _ (fun w hw => hvs w (List.mem_cons_of_mem v hw))
      (paintVisit_getElem? hx hy (hvs v List.mem_cons_self) hg)

end Pixel

/-! ### One pixel, page by page (R110) -/

/-- Page `p` has a visit on scanline `y` (R106). -/
abbrev PageReaches (pages p y : Nat) : Prop := p * pages ≤ y ∧ y < p * pages + 8

/-- A fold over a range in which one index only has an effect. -/
theorem foldl_range_of_single {β : Type} {f : β → Nat → β} {j : Nat} (hf : ∀ b i, i ≠ j → f b i = b)
    (b : β) (n : Nat) : (List.range n).foldl f b = if j < n then f b j else b := by
  induction n with
  | zero => rfl
  | succ n ih =>
    rw [List.range_succ, List.foldl_append, ih, List.foldl_cons, List.foldl_nil]
    rcases lt_trichotomy j n with h | rfl | h
    · rw [if_pos h, if_pos (by omega), hf _ n (by omega)]
    · rw [if_neg (by omega), if_pos (by omega)]
    · rw [if_neg (by omega), if_neg (by omega), hf _ n (by omega)]

section Pages

variable (P : Params) (c : CfgRegs) (u : RawFrame) (x y : Nat)

/-- The bit that page `p` paints at `(x, y)`, if it reaches scanline `y`. -/
def pageBit (p : Nat) : Bool := visitBit c u ⟨p, x, y - p * pagesOf c⟩

/-- Whether `(x, y)` is lit once the pages below `n` are painted, page after page. -/
def litByPages : Nat → Bool
  | 0 => false
  | p + 1 =>
    if PageReaches (pagesOf c) p y then collide P.collision (litByPages p) (pageBit c u x y p)
    else litByPages p

/-- R106: of the visits of a page, one can land on a given pixel. -/
theorem foldl_litAfterVisit_page (hx : x < widthOf c) (p : Nat) (lit : Bool) :
    ((List.range (widthOf c)).flatMap fun col => (List.range 8).map fun b => (⟨p, col, b⟩ : Visit)).foldl
        (litAfterVisit P c u x y) lit =
      if PageReaches (pagesOf c) p y then collide P.collision lit (pageBit c u x y p) else lit := by
  have hmiss {col b : Nat} (h : ¬ (col = x ∧ b + p * pagesOf c = y)) (lit : Bool) :
      litAfterVisit P c u x y lit ⟨p, col, b⟩ = lit :=
    if_neg (by simpa [scanMapLegacy] using h)
  simp only [List.foldl_flatMap, List.foldl_map]
  rw [foldl_range_of_single (j := x) fun lit col hcol =>
      List.foldl_fixed' (fun b => hmiss (by simp [hcol]) lit) _, if_pos hx,
    foldl_range_of_single (j := y - p * pagesOf c) fun lit b hb => hmiss (by omega) lit]
  simp only [litAfterVisit, scanMapLegacy, Prod.mk.injEq, true_and, pageBit]
  by_cases hreach : PageReaches (pagesOf c) p y
  · rw [if_pos hreach, if_pos (by omega), if_pos (by omega)]
  · rw [if_neg hreach]
    by_cases hb : y - p * pagesOf c < 8
    · rw [if_pos hb, if_neg (by omega)]
    · rw [if_neg hb]

/-- R166: the visits run page by page. -/
theorem foldl_litAfterVisit_monoVisits (hx : x < widthOf c) (n : Nat) :
    (monoVisits (widthOf c) n).foldl (litAfterVisit P c u x y) false = litByPages P c u x y n := by
  induction n with
  | zero => rfl
  | succ n ih =>
    rw [monoVisits] at ih ⊢
    rw [List.range_succ (n := n), List.flatMap_append, List.foldl_append, ih, List.flatMap_singleton,
      foldl_litAfterVisit_page P c u x y hx, litByPages]

variable {x y}

/-- The legacy decoder, pixel by pixel. -/
theorem decodeMonoLegacy_getElem? (hx : x < widthOf c) (hy : y < heightOf c) :
    (decodeMonoLegacy P c u)[cellIndex (widthOf c) x y]? =
      some (colourOf c (litByPages P c u x y (pagesOf c))) := by
  rw [← foldl_litAfterVisit_monoVisits P c u x y hx]
  exact foldl_paintVisit_getElem? hx hy _ _ _ (fun v hv => (mem_monoVisits.1 hv).2.1)
    (gridOf_getElem? _ hx hy)

@[simp] theorem length_decodeMonoLegacy :
    (decodeMonoLegacy P c u).length = widthOf c * heightOf c := by
  rw [decodeMonoLegacy, length_foldl_paintVisit, length_gridOf]

variable {P c u}

/-! ### Which pages light a pixel -/

/-- Under either collision, a pixel is lit by a page that reaches it. -/
theorem exists_page_of_litByPages {n : Nat} (h : litByPages P c u x y n = true) :
    ∃ p < n, PageReaches (pagesOf c) p y ∧ pageBit c u x y p = true := by
  induction n with
  | zero => cases h
  | succ n ih =>
    have earlier (hlit : litByPages P c u x y n = true) :
        ∃ p < n + 1, PageReaches (pagesOf c) p y ∧ pageBit c u x y p = true :=
      let ⟨p, hp, hpage⟩ := ih hlit
      ⟨p, by omega, hpage⟩
    rw [litByPages] at h
    split at h
    next hreach =>
      rcases lit_or_bit_of_collide h with hlit | hbit
      · exact earlier hlit
      · exact ⟨n, by omega, hreach, hbit⟩
    next => exact earlier h

/-- A pixel that no page lights is not lit. -/
theorem litByPages_eq_false {n : Nat}
    (h : ∀ p < n, PageReaches (pagesOf c) p y → pageBit c u x y p = false) :
    litByPages P c u x y n = false := by
  by_contra hlit
  obtain ⟨p, hp, hreach, hbit⟩ := exists_page_of_litByPages (by simpa using hlit)
  rw [h p hp hreach] at hbit
  cases hbit

/-- The last page that reaches a pixel is the last to change it. -/
theorem litByPages_of_last {p n : Nat} (hp : p < n) (hreach : PageReaches (pagesOf c) p y)
    (hlast : ∀ q < n, p < q → ¬ PageReaches (pagesOf c) q y) :
    litByPages P c u x y n = collide P.collision (litByPages P c u x y p) (pageBit c u x y p) := by
  induction n with
  | zero => omega
  | succ n ih =>
    rw [litByPages]
    by_cases hpn : p = n
    · subst hpn
      rw [if_pos hreach]
    · rw [if_neg (hlast n (by omega) (by omega))]
      exact ih (by omega) fun q hq => hlast q (by omega)

/-- One page that reaches a pixel decides it under either collision. -/
theorem litByPages_of_only {p n : Nat} (hp : p < n) (hreach : PageReaches (pagesOf c) p y)
    (honly : ∀ q < n, PageReaches (pagesOf c) q y → q = p) :
    litByPages P c u x y n = pageBit c u x y p := by
  rw [litByPages_of_last hp hreach fun q hq hpq hr => hpq.ne' (honly q hq hr),
    litByPages_eq_false fun q hq hr => absurd (honly q (by omega) hr) hq.ne, collide_false_left]

/-- Under OR, a pixel stays lit. -/
theorem litByPages_of_or (hk : P.collision = .or) {p n : Nat} (hp : p < n)
    (hreach : PageReaches (pagesOf c) p y) (hbit : pageBit c u x y p = true) :
    litByPages P c u x y n = true := by
  induction n with
  | zero => omega
  | succ n ih =>
    rw [litByPages, hk]
    by_cases hpn : p = n
    · subst hpn
      rw [if_pos hreach, hbit]
      exact Bool.or_true _
    · have hlit := ih (by omega)
      split
      · rw [hlit]
        exact Bool.true_or (pageBit c u x y n)
      · exact hlit

end Pages

/-! ### The statements about the painter -/

theorem colourOf_eq_fgOf_iff {c : CfgRegs} (hne : fgOf c ≠ bgOf c) (s : Bool) :
    colourOf c s = fgOf c ↔ s = true := by
  cases s <;> simp [colourOf, hne.symm]

/-- Settles O27: a pixel is lit under OR exactly when a page lights it. -/
theorem legacyOrPaintsUnionOfPages : Obligations.LegacyOrPaintsUnionOfPages := by
  intro P c us hk hne x hx y hy
  have hpixel : (decodeMonoLegacy P c us)[x + y * widthOf c]? = _ := decodeMonoLegacy_getElem? P c us hx hy
  rw [hpixel, Option.some_inj, colourOf_eq_fgOf_iff hne, Option.some_inj]
  refine ⟨⟨fun hlit => ?_, ?_⟩, ?_⟩
  · obtain ⟨p, hp, ⟨hlo, hhi⟩, hbit⟩ := exists_page_of_litByPages hlit
    exact ⟨p, hp, hlo, hhi, hbit⟩
  · rintro ⟨p, hp, hlo, hhi, hbit⟩
    exact litByPages_of_or hk hp ⟨hlo, hhi⟩ hbit
  · cases litByPages P c us x y (pagesOf c) with
    | true => exact .inl rfl
    | false => exact .inr rfl

/-- R112: such a scanline is below the last page, or in a gap between two pages. -/
theorem not_pageReaches_of_gap {pages p y : Nat} (hp : p < pages)
    (hgap : (pages - 1) * pages + 8 ≤ y ∨ 8 ≤ y % pages) : ¬ PageReaches pages p y := by
  rintro ⟨hlo, hhi⟩
  rcases hgap with hlast | hmod
  · have hle : p * pages ≤ (pages - 1) * pages := Nat.mul_le_mul_right _ (by omega)
    omega
  · obtain ⟨b, rfl⟩ := Nat.exists_eq_add_of_le hlo
    rw [Nat.mul_add_mod_self_right] at hmod
    have hle := Nat.mod_le b pages
    omega

/-- Settles O38: no page reaches such a scanline. -/
theorem legacyGapsStayBackground : Obligations.LegacyGapsStayBackground := by
  intro P c us x y hx hy hgap
  have hnone (p : Nat) (hp : p < pagesOf c) : ¬ PageReaches (pagesOf c) p y :=
    not_pageReaches_of_gap hp (hgap.imp (fun h => h.2.2) And.right)
  have hpixel := decodeMonoLegacy_getElem? P c us hx hy
  rw [litByPages_eq_false fun p hp hr => absurd hr (hnone p hp)] at hpixel
  exact hpixel

/-- R111: with 1 or 8 pages both mappings start page `p` at the same scanline. -/
theorem page_start_eq {pages p : Nat} (h : pages = 1 ∨ pages = 8) (hp : p < pages) : p * pages = 8 * p := by
  rcases h with rfl | rfl <;> omega

/-- R111: then the page of a pixel under the corrected mapping is the only one that reaches it. -/
theorem decodeMonoLegacy_eq_corrected {c : CfgRegs} (hpages : pagesOf c = 1 ∨ pagesOf c = 8)
    (h8 : heightOf c % 8 = 0) (P : Params) (u : RawFrame) :
    decodeMonoLegacy P c u = decodeMonoCorrected c u := by
  refine grid_ext (length_decodeMonoLegacy P c u) (length_decodeMonoCorrected c u) fun x y hx hy => ?_
  have hp : y / 8 < pagesOf c := Nat.div_lt_of_lt_mul (heightOf_eq_of_mod h8 ▸ hy)
  have hstart (p : Nat) (hp : p < pagesOf c) : PageReaches (pagesOf c) p y ↔ p = y / 8 := by
    rw [PageReaches, page_start_eq hpages hp]
    omega
  rw [decodeMonoLegacy_getElem? P c u hx hy, decodeMonoCorrected_getElem? u hx hy,
    litByPages_of_only hp ((hstart _ hp).2 rfl) fun q hq => (hstart q hq).1, pageBit, visitBit,
    page_start_eq hpages hp, show y - 8 * (y / 8) = y % 8 by omega]

/-- Settles O37, clause by clause; in the last one the scanlines are `pages` and 8. -/
theorem legacyAgreesAtOneOrEightPages : Obligations.LegacyAgreesAtOneOrEightPages := by
  refine ⟨fun pages v hpages hp => ?_, fun P c us hpages h8 => decodeMonoLegacy_eq_corrected hpages h8 P us,
    fun pages _ hne => ?_⟩
  · rw [scanMapLegacy, page_start_eq hpages hp, scanMapCorrected]
  · simpa [scanMapLegacy, scanMapCorrected] using hne

/-- Settles O40: every bit a pixel could be lit by is clear, and the decoder writes BG where none is set. -/
theorem zeroFrameIsAllBackground : Obligations.ZeroFrameIsAllBackground := by
  intro P c us hf h8 hl hzero
  have hbyte {x p : Nat} (hx : x < widthOf c) (hp : p < pagesOf c) :
      byteAt us (cellIndex (widthOf c) x p) = 0 :=
    byteAt_of_all_zero hzero (hl ▸ cellIndex_lt hx hp)
  refine grid_ext (length_decodeFrame (by simp [hf]) us) List.length_replicate fun x y hx hy => ?_
  rw [List.getElem?_replicate, if_pos (cellIndex_lt hx hy), decodeFrame_mono hf]
  split
  · rw [decodeMonoLegacy_getElem? P c us hx hy, litByPages_eq_false]
    · rfl
    · intro p hp _
      rw [pageBit, visitBit, hbyte hx hp, bitX_zero]
  · rw [decodeMonoCorrected_getElem? us hx hy,
      hbyte hx (Nat.div_lt_of_lt_mul (heightOf_eq_of_mod h8 ▸ hy)), bitX_zero]
    rfl

/-! ### A TICK with the legacy mapping -/

/-- The last page that starts at or above scanline `y` (R110). -/
theorem le_lastPage_iff {pages p y : Nat} (hp : p < pages) :
    p ≤ min (y / pages) (pages - 1) ↔ p * pages ≤ y := by
  rw [Nat.le_min, Nat.le_div_iff_mul_le (by omega)]
  omega

/-- R110 under LAST_WINS: the last page that starts at or above scanline `y` lights the pixel or leaves it
unlit, and no page reaches it when that one does not. -/
theorem litByPages_lastWins {P : Params} {c : CfgRegs} {u : RawFrame} {x y p : Nat}
    (hk : P.collision = .lastWins) (hpages : 0 < pagesOf c) (hp : p = min (y / pagesOf c) (pagesOf c - 1)) :
    litByPages P c u x y (pagesOf c) = (decide (y - p * pagesOf c < 8) && pageBit c u x y p) := by
  have hplt : p < pagesOf c := by omega
  have hstart : p * pagesOf c ≤ y := (le_lastPage_iff hplt).1 hp.le
  have hle {q : Nat} (hq : q < pagesOf c) (hr : PageReaches (pagesOf c) q y) : q ≤ p :=
    hp ▸ (le_lastPage_iff hq).2 hr.1
  by_cases hreach : y - p * pagesOf c < 8
  · rw [litByPages_of_last hplt ⟨hstart, by omega⟩ fun q hq hpq hr => hpq.not_ge (hle hq hr), hk]
    simp [hreach, collide]
  · rw [litByPages_eq_false fun q hq hr => absurd hr.2 ?_]
    · simp [hreach]
    · have : q * pagesOf c ≤ p * pagesOf c := Nat.mul_le_mul_right _ (hle hq hr)
      omega

/-- The bit of a page that reaches the scanline is a bit of a unit of the answer. -/
theorem shown_pageBit {c : CfgRegs} {us : List Quad} {x y p : Nat} {v : Quad}
    (hv : us[cellIndex (widthOf c) x p]? = some v) :
    (decide (y - p * pagesOf c < 8) && pageBit c (us.map (cutUnit .bits8)) x y p) =
      decide (y - p * pagesOf c < 8 ∧ v.getLsbD (y - p * pagesOf c) = true) := by
  by_cases hb : y - p * pagesOf c < 8
  · simp [pageBit, visitBit, bitX_byteAt_map_cutUnit hv hb, hb]
  · simp [hb]

/-- Settles O26: the TICK ends as `exec_tick_mono` says, and the page `litByPages_lastWins` names has its unit
in a frame of `W * pages` units. -/
theorem tickDecodesMonoLegacyLastWins : Obligations.TickDecodesMonoLegacyLastWins := by
  intro s us rest hm hf hmap h8 ha hl
  refine ⟨_, exec_tick_mono hm hf ha hl, ?_⟩
  rw [decodeFrame_mono hf, legacyRows, hmap, if_pos rfl]
  refine ⟨length_decodeMonoLegacy _ _ _, fun x hx y hy => ?_⟩
  have hpages : 0 < pagesOf s.cfg := by have := heightOf_eq_of_mod h8; omega
  obtain ⟨p, hp⟩ : ∃ p, p = min (y / pagesOf s.cfg) (pagesOf s.cfg - 1) := ⟨_, rfl⟩
  have hplt : p < pagesOf s.cfg := by omega
  have hunit : cellIndex (widthOf s.cfg) x p < us.length := hl ▸ cellIndex_lt hx hplt
  have hdecode := decodeMonoLegacy_getElem? Config.params s.cfg (us.map (cutUnit .bits8)) hx hy
  rw [litByPages_lastWins rfl hpages hp, shown_pageBit (List.getElem?_eq_getElem hunit), colourOf] at hdecode
  simp only [decide_eq_true_eq] at hdecode
  subst hp
  exact ⟨_, List.getElem?_eq_getElem hunit, hdecode⟩

end Sys2Proof.Machine

/-! The RGB565 colours and the order of the RGB565 pixels (R136 to R141). -/

namespace Sys2Proof.Machine

/-! ### The image of the colour function (R138) -/

/-- R137: the low bits of the channels of an RGB565 colour are 0. -/
def LowChannelBitsZero (n : Nat) : Prop := n % 2 ^ 3 = 0 ∧ n / 2 ^ 8 % 2 ^ 2 = 0 ∧ n / 2 ^ 16 % 2 ^ 3 = 0

/-- A colour made of three channels of 5, 6 and 5 bits is the one that has them as its high channel bits
and 0 below. -/
theorem eq_colour_iff {n r g b : Nat} (hg : g < 64) (hb : b < 32) :
    n = r * 8 * 65536 + g * 4 * 256 + b * 8 ↔
      LowChannelBitsZero n ∧ n / 524288 = r ∧ n / 1024 % 64 = g ∧ n / 8 % 32 = b := by
  simp only [LowChannelBitsZero, Nat.reducePow]
  constructor
  · intro hn
    refine ⟨⟨?_, ?_, ?_⟩, ?_, ?_, ?_⟩ <;> omega
  · rintro ⟨⟨h8, h256, h65536⟩, hr, hg', hb'⟩
    omega

/-- The halfword whose channels are the high bits of a colour's. -/
def rgb565OfColour (col : Colour) : Halfword :=
  BitVec.ofNat 16 (col.toNat / 524288 * 2048 + col.toNat / 1024 % 64 * 32 + col.toNat / 8 % 32)

theorem eq_rgb565OfColour_iff {v : Halfword} {col : Colour} : v = rgb565OfColour col ↔
    col.toNat / 524288 = v.toNat / 2048 ∧ col.toNat / 1024 % 64 = v.toNat / 32 % 64 ∧
      col.toNat / 8 % 32 = v.toNat % 32 := by
  have hcol := col.isLt
  rw [← BitVec.toNat_inj, rgb565OfColour, BitVec.toNat_ofNat, Nat.mod_eq_of_lt (by omega)]
  constructor
  · intro hv
    refine ⟨?_, ?_, ?_⟩ <;> omega
  · rintro ⟨hr, hg, hb⟩
    omega

/-- R138: a pixel has a colour exactly if the colour's low bits are 0 and the pixel is the one read back
from it. -/
theorem rgb565ToColour_eq_iff {v : Halfword} {col : Colour} :
    rgb565ToColour v = col ↔ LowChannelBitsZero col.toNat ∧ v = rgb565OfColour col := by
  rw [eq_comm, ← BitVec.toNat_inj, rgb565ToColour_toNat,
    eq_colour_iff (Nat.mod_lt _ (by decide)) (Nat.mod_lt _ (by decide)), eq_rgb565OfColour_iff]

theorem rgb565ToColour_injective : Function.Injective rgb565ToColour := fun v w h => by
  obtain ⟨-, hv⟩ := rgb565ToColour_eq_iff.1 h
  obtain ⟨-, hw⟩ := rgb565ToColour_eq_iff.1 (rfl : rgb565ToColour w = _)
  rw [hv, ← hw]

/-- Settles O41: `rgb565OfColour` reads the pixel back from each colour of the image. -/
theorem rgb565ColourClosedFormInjective : Obligations.Rgb565ColourClosedFormInjective := by
  refine ⟨fun v => ?_, rgb565ToColour_injective, fun col => ⟨?_, fun hlow => ?_⟩,
    by decide, by decide, by decide⟩
  · rw [rgb565ToColour_toNat]
    omega
  · rintro ⟨v, hv⟩
    exact (rgb565ToColour_eq_iff.1 hv).1
  · exact ⟨rgb565OfColour col, rgb565ToColour_eq_iff.2 ⟨hlow, rfl⟩⟩

/-! ### The pixels in memory order (R130, R131, R141) -/

/-- The `k`-th cell of a grid, by its number. -/
theorem gridOf_getElem?_of_lt {w h k : Nat} (f : Nat → Nat → Colour) (hk : k < w * h) :
    (gridOf w h f)[k]? = some (f (k % w) (k / w)) := by
  have hw : 0 < w := Nat.pos_of_mul_pos_right (Nat.zero_lt_of_lt hk)
  have hcell := gridOf_getElem? f (Nat.mod_lt k hw) (Nat.div_lt_of_lt_mul hk)
  rwa [cellIndex_mod_div] at hcell

/-- R130: the pixel number is the cell. -/
theorem pixelNumber_mod_div (w k : Nat) : pixelNumber w (k % w) (k / w) = k :=
  cellIndex_mod_div w k

/-- R131: the pixel of cell `4 * q + l` is lane `l` of unit `q`. -/
theorem pixelToQuad_mod_div {w q l : Nat} (hw : w % 4 = 0) (hl : l < 4) :
    pixelToQuad w ((4 * q + l) % w) ((4 * q + l) / w) = (q, l) := by
  have hbytes := pixelToQuad_bytes hw ((4 * q + l) % w) ((4 * q + l) / w)
  have hlane : (pixelToQuad w ((4 * q + l) % w) ((4 * q + l) / w)).2 < 4 :=
    Nat.mod_lt _ (by omega)
  rw [cellIndex_mod_div] at hbytes
  exact Prod.ext (by omega) (by omega)

/-- Settles O43: the pixel of cell `k` is at `(k % W, k / W)`, which each packing maps back to the `k`-th
place in memory. -/
theorem rgbOutputOrderIsMemoryOrder : Obligations.RgbOutputOrderIsMemoryOrder := by
  intro c us
  refine ⟨cellIndex_mod_div _, fun j hj => ?_, fun hw q hq l hl => ?_⟩
  · rw [decodeLE16, gridOf_getElem?_of_lt _ hj, pixelNumber_mod_div]
  · have hcell : 4 * q + l < widthOf c * heightOf c := by
      have hpixels : 4 * (widthOf c / 4 * heightOf c) = widthOf c * heightOf c := by
        rw [← Nat.mul_assoc, Nat.mul_div_cancel' (Nat.dvd_of_mod_eq_zero hw)]
      omega
    rw [decodeQuad, gridOf_getElem?_of_lt _ hcell, pixelToQuad_mod_div hw hl]

/-! ### The channel expander (R137) -/

/-- A channel shifted within a byte that has room for it loses no bit. -/
theorem toNat_setWidth_shiftLeft {n k : Nat} (v : BitVec n) (hroom : n + k = 8) :
    (v.setWidth 8 <<< k).toNat = v.toNat * 2 ^ k := by
  have hfits : v.toNat * 2 ^ k < 2 ^ 8 := by
    rw [← hroom, Nat.pow_add]
    exact Nat.mul_lt_mul_of_pos_right v.isLt (Nat.two_pow_pos k)
  have hv : v.toNat < 2 ^ 8 := lt_of_lt_of_le v.isLt (Nat.pow_le_pow_right (by decide) (by omega))
  rw [BitVec.toNat_shiftLeft, BitVec.toNat_setWidth, Nat.mod_eq_of_lt hv, Nat.shiftLeft_eq,
    Nat.mod_eq_of_lt hfits]

/-- Settles O42: each channel and its shift fill a byte. -/
theorem expandScalesByShiftOnly : Obligations.ExpandScalesByShiftOnly := fun ch =>
  ⟨toNat_setWidth_shiftLeft ch.r5 rfl, toNat_setWidth_shiftLeft ch.g6 rfl,
    toNat_setWidth_shiftLeft ch.b5 rfl⟩

end Sys2Proof.Machine

/-! The address sequencer (R160 to R168): the request of an accepted configuration and its frame, what a pixel
shows of a halted target, and the order of the visits. -/

namespace Sys2Proof.Machine

/-! ### The read request, format by format (R160 to R162) -/

section Geometry

variable {P : Params} {c : CfgRegs}

theorem readRequest_mono (hf : fmtOf c = .mono1bpp) (P : Params) :
    readRequest P c = ⟨baseOf P c, widthOf c * pagesOf c, .bits8⟩ := by
  rw [readRequest, expectedUnits_mono hf, hf, unitWidth]

theorem readRequest_le16 (hf : fmtOf c = .rgb565le16) (P : Params) :
    readRequest P c = ⟨baseOf P c, 2 * widthOf c * heightOf c, .bits8⟩ := by
  rw [readRequest, expectedUnits_le16 hf, hf, unitWidth]

theorem readRequest_quad64 (hf : fmtOf c = .rgb565quad64) (P : Params) :
    readRequest P c = ⟨baseOf P c, widthOf c / 4 * heightOf c, .bits64⟩ := by
  rw [readRequest, expectedUnits_quad64 hf, hf, unitWidth]

/-- R161: one byte for 8 pixels of a column. -/
theorem frameBytes_mono (hf : fmtOf c = .mono1bpp) : frameBytes c = widthOf c * pagesOf c := by
  rw [frameBytes, expectedUnits_mono hf, hf, unitWidth, unitBytes, Nat.mul_one]

/-! ### The frame of an accepted configuration (R186) -/

/-- Checks 3 to 5: an accepted frame is one of whole Mono1bpp pages or of RGB565. -/
theorem accepted_format (h : ∀ k, ¬ CheckFails P c k) :
    fmtOf c = .mono1bpp ∧ heightOf c % 8 = 0 ∨ IsRgb565 c := by
  obtain ⟨_, _, hres, hmono, hquad, _⟩ :=
    firstFailingCheck_eq_zero (firstFailingCheck_of_passes h)
  cases hf : fmtOf c with
  | mono1bpp => exact .inl ⟨rfl, hmono hf⟩
  | rgb565le16 => exact .inr (.inl hf)
  | rgb565quad64 => exact .inr (.inr ⟨hf, hquad hf⟩)
  | reserved => exact absurd hf hres

/-- R161: an accepted frame has a byte, and no format needs more than two bytes for a pixel. -/
theorem accepted_frameBytes (h : ∀ k, ¬ CheckFails P c k) :
    0 < frameBytes c ∧ frameBytes c ≤ 2 * (widthOf c * heightOf c) := by
  obtain ⟨hw, hh, _⟩ :=
    firstFailingCheck_eq_zero (firstFailingCheck_of_passes h)
  have hpixels : 0 < widthOf c * heightOf c := Nat.mul_pos (by omega) (by omega)
  rcases accepted_format h with ⟨hf, h8⟩ | hrgb
  · have hbits : widthOf c * heightOf c = 8 * frameBytes c := by
      rw [frameBytes_mono hf, heightOf_eq_of_mod h8, Nat.mul_left_comm]
    omega
  · rw [frameBytes_rgb565 hrgb, Nat.mul_assoc]
    omega

theorem unitBytes_pos (w : UnitWidth) : 0 < unitBytes w := by cases w <;> decide

/-- R54: unit `i` ends where unit `i + 1` begins. -/
theorem unitAddress_add_unitBytes (a : Nat) (w : UnitWidth) (i : Nat) :
    unitAddress a w i + unitBytes w = a + (i + 1) * unitBytes w := by
  rw [unitAddress, Nat.succ_mul, Nat.add_assoc]

/-- R168: RangeOK compares unbounded naturals. -/
theorem rangeOK_iff (P : Params) (c : CfgRegs) :
    rangeOK P c = true ↔ baseOf P c + frameBytes c ≤ 2 ^ P.addrBits := decide_eq_true_iff

/-- R54, R161: no unit of a frame ends past the frame. -/
theorem unit_end_le_frame_end (P : Params) {i : Nat} (hi : i < expectedUnits c) :
    unitAddress (baseOf P c) (unitWidth (fmtOf c)) i + unitBytes (unitWidth (fmtOf c)) ≤
      baseOf P c + frameBytes c := by
  rw [unitAddress_add_unitBytes, frameBytes]
  exact Nat.add_le_add_left (Nat.mul_le_mul_right _ hi) _

end Geometry

/-- Settles O19: the units are at most the bytes of the frame, at most two per pixel; each ends within the
frame, and the frame passed the range check. -/
theorem acceptedFrameNeverWraps : Obligations.AcceptedFrameNeverWraps := by
  intro P c h
  obtain ⟨_, _, _, _, _, _, hcap, hrange⟩ :=
    firstFailingCheck_eq_zero (firstFailingCheck_of_passes h)
  obtain ⟨hpos, htwo⟩ := accepted_frameBytes h
  have hunits : expectedUnits c ≤ frameBytes c := Nat.le_mul_of_pos_right _ (unitBytes_pos _)
  exact ⟨Nat.pos_of_mul_pos_right hpos, by omega,
    fun i hi => (unit_end_le_frame_end P hi).trans ((rangeOK_iff P c).1 hrange)⟩

/-- Settles O21: an accepted RGB565_QUAD64 frame has whole quartets, so both packings are `IsRgb565`. -/
theorem readRequestGeometry : Obligations.ReadRequestGeometry := by
  intro P c h
  obtain ⟨_, _, _, _, hquad, _⟩ :=
    firstFailingCheck_eq_zero (firstFailingCheck_of_passes h)
  exact ⟨fun hf => readRequest_mono hf P,
    fun hf => ⟨readRequest_le16 hf P, frameBytes_rgb565 (.inl hf)⟩,
    fun hf => ⟨readRequest_quad64 hf P, frameBytes_rgb565 (.inr ⟨hf, hquad hf⟩)⟩⟩

/-! ### The range check (R168) -/

/-- R186 check 8 is the range check. -/
theorem checkFails_eight_iff (P : Params) (c : CfgRegs) : CheckFails P c 8 ↔ rangeOK P c = false := by
  rw [← Bool.not_eq_true, rangeOK_iff, Nat.not_le, CheckFails]

/-- R26: with 32 address bits BASE has no reserved bits. -/
theorem baseOf_of_addrBits_32 {P : Params} (hP : P.addrBits = 32) (c : CfgRegs) :
    baseOf P c = c.base.toNat := by
  rw [baseOf, BitVec.toNat_setWidth, hP, Nat.mod_eq_of_lt c.base.isLt]

/-- R168's example: the default frame at any base, in an address space of 32 bits. -/
theorem rangeOK_reset_iff {P : Params} (hP : P.addrBits = 32) (b : Word) :
    rangeOK P { CfgRegs.reset with base := b } = true ↔ b.toNat + 1024 ≤ 2 ^ 32 := by
  rw [rangeOK_iff, baseOf_of_addrBits_32 hP, hP]
  exact Iff.of_eq (congrArg (b.toNat + · ≤ 2 ^ 32) frameBytes_reset)

/-- Settles O20: check 8 fails exactly when the frame does not fit, and LOCK records the first check that
fails. -/
theorem rangeCheckHasNoWrapAround : Obligations.RangeCheckHasNoWrapAround := by
  refine ⟨rangeOK_iff, fun P c hpass hrange => ?_, fun P hP => ⟨?_, ?_⟩⟩
  · exact BitVec.eq_of_toNat_eq
      (firstFailingCheck_toNat_of_first ((checkFails_eight_iff P c).2 hrange) hpass)
  · exact (rangeOK_reset_iff hP _).2 (by decide)
  · rw [← Bool.not_eq_true, rangeOK_reset_iff hP]
    decide

/-! ### A pixel of a halted target (R163, R164) -/

section Halted

variable {P : Params} {m : Memory} {c : CfgRegs} {us : RawFrame}

/-- A TICK over a halted target that ends without error shows the frame it read. -/
theorem exec_tick_halted_ok {s t : State} {rest : List PortAnswer} (hm : s.mode = .run)
    (ha : s.host.answers = .halted m :: rest) (hx : exec .tick s = .next t) (he : t.lastErr = .none) :
    ∃ us, memReadUnits Config.params m (unitWidth (fmtOf s.cfg)) (baseOf Config.params s.cfg)
        (expectedUnits s.cfg) = some us ∧ t.out = decodeFrame Config.params s.cfg us := by
  rcases respond_halted_cases Config.params m s.cfg with ⟨_, hr⟩ | ⟨_, us, hr, hus⟩
  · rw [exec_tick_of_fail hm ha hr] at hx
    obtain rfl := Host.Outcome.next.inj hx
    cases he
  · rw [exec_tick_of_frame hm ha hr (length_of_memReadUnits hus)] at hx
    obtain rfl := Host.Outcome.next.inj hx
    exact ⟨us, hus, rfl⟩

/-- R54: unit `i` of a read of bytes is the byte at `a + i`. -/
theorem memRead_eq_byteAt {a n i : Nat} (h : memReadUnits P m .bits8 a n = some us) (hi : i < n) :
    memRead P m (a + i) = some (byteAt us i) := by
  obtain ⟨u, hu, hmem⟩ := memReadUnits_byte h hi (k := 0) (by decide)
  rw [byteAt, unitAt_of_getElem? hu, BitVec.setWidth_eq_extractLsb' (by omega)]
  simpa [unitBytes] using hmem

/-- R163: over a halted target, a Mono1bpp pixel shows a bit of the byte at `BASE + x + (y div 8) * W`. -/
theorem decodeMonoCorrected_halted_pixel (hf : fmtOf c = .mono1bpp) (h8 : heightOf c % 8 = 0)
    (hus : memReadUnits P m (unitWidth (fmtOf c)) (baseOf P c) (expectedUnits c) = some us)
    {x y : Nat} (hx : x < widthOf c) (hy : y < heightOf c) :
    ∃ b, memRead P m (baseOf P c + cellIndex (widthOf c) x (y / 8)) = some b ∧
      (decodeMonoCorrected c us)[cellIndex (widthOf c) x y]? = some (colourOf c (bitX b (y % 8))) := by
  rw [hf, unitWidth, expectedUnits_mono hf] at hus
  exact ⟨_, memRead_eq_byteAt hus (monoUnit_lt h8 hx hy), decodeMonoCorrected_getElem? us hx hy⟩

end Halted

/-- R102, R163, in the form of the statement. -/
theorem monoAddress_eq (P : Params) (c : CfgRegs) (x y : Nat) :
    monoAddress P c x y = (baseOf P c + x + y / 8 * widthOf c, y % 8) := by
  rw [monoAddress, pixelToUnit, Nat.add_assoc]

/-- Settles O31: OUT is the decoded frame, and `decodeMonoCorrected_halted_pixel` says what a pixel of it
shows. -/
theorem monoPixelShowsBitAtItsAddress : Obligations.MonoPixelShowsBitAtItsAddress := by
  intro s m rest t hm hf hmap h8 ha hexec he x hx y hy
  obtain ⟨us, hus, hout⟩ := exec_tick_halted_ok hm ha hexec he
  obtain ⟨b, hmem, hpixel⟩ := decodeMonoCorrected_halted_pixel hf h8 hus hx hy
  rw [decodeFrame_mono hf, legacyRows, hmap, if_neg Bool.false_ne_true] at hout
  rw [cellIndex, ← Nat.add_assoc] at hmem
  exact ⟨b, monoAddress_eq _ _ x y, hmem, hout ▸ hpixel⟩

/-- Settles O32: OUT is the decoded frame, and `decodeFrame_halted_pixel` says what a pixel of it shows. -/
theorem rgbPixelShowsBytesAtItsAddress : Obligations.RgbPixelShowsBytesAtItsAddress := by
  intro s m rest t hm hrgb ha hexec he x hx y hy
  obtain ⟨us, hus, hout⟩ := exec_tick_halted_ok hm ha hexec he
  rw [hout]
  exact decodeFrame_halted_pixel hrgb hus hx hy

/-! ### The order of the Mono1bpp visits (R166) -/

/-- The visits of one page: `c` outer, `b` inner. -/
def pageVisits (w p : Nat) : List Visit :=
  (List.range w).flatMap fun c => (List.range 8).map fun b => ⟨p, c, b⟩

theorem monoVisits_eq_flatMap (w pages : Nat) :
    monoVisits w pages = (List.range pages).flatMap (pageVisits w) := rfl

@[simp] theorem length_pageVisits (w p : Nat) : (pageVisits w p).length = w * 8 := by
  simp [pageVisits]

theorem pageVisits_getElem? {w c b : Nat} (p : Nat) (hc : c < w) (hb : b < 8) :
    (pageVisits w p)[b + c * 8]? = some ⟨p, c, b⟩ := by
  rw [pageVisits, getElem?_flatMap_block _ 8 _ c b c (by simp) hb (by simp [hc])]
  simp [hb]

/-- Settles O36: a frame is blocks of one page, and a page blocks of one column. -/
theorem visitsRunPageColumnBit : Obligations.VisitsRunPageColumnBit := by
  intro w pages
  rw [monoVisits_eq_flatMap]
  refine ⟨by simp [Nat.mul_comm], fun p c b hp hc hb => ?_⟩
  have hplace : 8 * (c + p * w) + b = (b + c * 8) + p * (w * 8) := by ring
  rw [hplace, getElem?_flatMap_block _ (w * 8) _ p _ p (by simp) (by omega) (by simp [hp])]
  exact pageVisits_getElem? p hc hb

end Sys2Proof.Machine

/-! What each command of 43_commands.md but TICK and STAT_RD answers when it succeeds, and how a LOCK ends
(R181, R182, R184, R186, R192). -/

namespace Sys2Proof.Machine

/-! ### The two ends of a LOCK in CONFIG, in terms of its checks (R186) -/

section LockEnds

variable {P : Params} {s : State} {k : Nat}

theorem lockCfg_of_passes (h : ∀ k, ¬ CheckFails P s.cfg k) :
    lockCfg P s = okCmd 0 { s with lockReason := 0, mode := .run } := by
  rcases lockCfg_cases P s with ⟨_, hend⟩ | ⟨hnz, _⟩
  · exact hend
  · exact absurd (firstFailingCheck_of_passes h) hnz

theorem lockCfg_of_first (hk : CheckFails P s.cfg k) (hp : PassesBelow P s.cfg k) :
    lockCfg P s = failCmd .unsupportedFormat { s with lockReason := BitVec.ofNat 4 k, mode := .fatal } := by
  have hreason : firstFailingCheck P s.cfg = BitVec.ofNat 4 k := by
    rw [← firstFailingCheck_toNat_of_first hk hp, BitVec.ofNat_toNat, BitVec.setWidth_eq]
  rcases lockCfg_cases P s with ⟨hz, _⟩ | ⟨_, hend⟩
  · exact absurd hk ((firstFailingCheck_eq_zero_iff P s.cfg).1 hz k)
  · rw [hend, hreason]

end LockEnds

/-- Settles O16: `okCmd 0` names the fields LOCK has not written itself. -/
theorem lockAcceptsValidConfiguration : Obligations.LockAcceptsValidConfiguration := by
  intro s hm hpass
  rw [exec_lock_of_config hm, lockCfg_of_passes hpass]
  rfl

/-- Settles O17: the number LOCK computes is that of the first check that fails. -/
theorem lockRecordsFirstFailingCheck : Obligations.LockRecordsFirstFailingCheck := by
  refine ⟨fun s hm => exec_lock_of_config hm, fun P s k hk hfirst => ?_⟩
  obtain ⟨hlow, hhigh⟩ := checkFails_range hk
  exact ⟨hlow, hhigh, lockCfg_of_first hk hfirst⟩

/-! ### NOP, CFG_WR and CFG_RD (R181, R182, R184) -/

/-- Settles O12: NOP is `okCmd 0` and nothing more. -/
theorem nopClearsLastErr : Obligations.NopClearsLastErr := fun _ => rfl

/-- R22, R37: the defined field of a value, as a number. -/
theorem fieldOf_eq_ofNat (P : Params) (r : CfgReg) (v : Word) :
    fieldOf P r v = BitVec.ofNat 32 (v.toNat % 2 ^ fieldWidth P r) := by
  rw [← fieldOf_toNat, BitVec.ofNat_toNat, BitVec.setWidth_eq]

section ConfigurationRegister

variable {s : State} {idx : BitVec 8} {r : CfgReg}

theorem exec_cfgWr_field (hm : s.mode = .config) (hr : cfgRegOfIdx idx = some r) (v : Word) :
    exec (.cfgWr idx v) s = .next (okCmd 0
      { s with cfg := cfgSet s.cfg r (BitVec.ofNat 32 (v.toNat % 2 ^ fieldWidth Config.params r)) }) := by
  rw [exec_cfgWr_of_config hm hr, cfgWrite, fieldOf_eq_ofNat]

theorem exec_cfgRd_field (hr : cfgRegOfIdx idx = some r) :
    exec (.cfgRd idx) s = .next
      (okCmd (BitVec.ofNat 32 ((cfgGet s.cfg r).toNat % 2 ^ fieldWidth Config.params r)) s) := by
  rw [exec_cfgRd_of_some hr, cfgRead, fieldOf_eq_ofNat]

end ConfigurationRegister

/-- Settles O13, register by register: IDX names it, and its field has the width R23 to R29 give. -/
theorem cfgWrStoresDefinedField : Obligations.CfgWrStoresDefinedField := by
  intro s v hm
  exact ⟨exec_cfgWr_field (r := .width) hm rfl v, exec_cfgWr_field (r := .height) hm rfl v,
    exec_cfgWr_field (r := .format) hm rfl v, exec_cfgWr_field (r := .base) hm rfl v,
    exec_cfgWr_field (r := .fgColor) hm rfl v, exec_cfgWr_field (r := .bgColor) hm rfl v,
    exec_cfgWr_field (r := .fps) hm rfl v, exec_cfgWr_field (r := .rowmap) hm rfl v⟩

/-- Settles O14, register by register: the field CFG_RD answers is the one CFG_WR stores. -/
theorem cfgRdAnswersRegister : Obligations.CfgRdAnswersRegister := by
  intro s
  exact ⟨exec_cfgRd_field (r := .width) rfl, exec_cfgRd_field (r := .height) rfl,
    exec_cfgRd_field (r := .format) rfl, exec_cfgRd_field (r := .base) rfl,
    exec_cfgRd_field (r := .fgColor) rfl, exec_cfgRd_field (r := .bgColor) rfl,
    exec_cfgRd_field (r := .fps) rfl, exec_cfgRd_field (r := .rowmap) rfl⟩

/-! ### OUT_RD inside the grid (R192) -/

section OutRd

variable {s : State} {x y : Nat}

theorem readPixel_of_inside (hv : s.outValid = true) (hx : x < widthOf s.cfg) (hy : y < heightOf s.cfg) :
    readPixel x y s = okCmd ((pixelAt s x y).setWidth 32) s := by
  rcases readPixel_cases x y s with ⟨hempty, _⟩ | ⟨_, hrange, _⟩ | ⟨_, _, _, hend⟩
  · exact absurd hv (by simp [hempty])
  · omega
  · exact hend

/-- R30, R113: a cell that OUT lists is the pixel. -/
theorem pixelAt_of_getElem? {p : Colour} (h : s.out[cellIndex (widthOf s.cfg) x y]? = some p) :
    pixelAt s x y = p := by
  simp [pixelAt, List.getD, h]

end OutRd

/-- Settles O45: the colour answered is `pixelAt`. -/
theorem outRdAnswersPixel : Obligations.OutRdAnswersPixel := by
  intro s x y hv hx hy
  refine ⟨pixelAt s x.toNat y.toNat, ?_, fun p hp => pixelAt_of_getElem? hp⟩
  rw [exec, execOutRd, readPixel_of_inside hv hx hy, BitVec.ofNat_toNat]
  rfl

end Sys2Proof.Machine

/-! The errors and the events of 60_exceptions.md: the STATE check (R227), the steps that run no command (R226,
R240, R250), a TICK that fails (R223, R225), FATAL (R224), and the errors of OUT_RD (R228). -/

namespace Sys2Proof.Machine

/-! ### The STATE check (R180, R227, R235) -/

section StateCheck

variable {i : Instr} {s t : State}

/-- R227: a command whose IDX is legal and whose STATE does not allow it ends with CMD_STATE. -/
theorem exec_of_not_allowed (hi : i.wf = true) (ha : allowedIn s.mode i = false) :
    exec i s = .next (failCmd .cmdState s) := by
  cases i with
  | nop | cfgRd | outRd | statRd => cases ha
  | cfgWr idx v =>
    obtain ⟨r, hr⟩ := Option.isSome_iff_exists.1 ((cfgRegOfIdx_isSome_iff idx).2 (of_decide_eq_true hi))
    exact exec_cfgWr_of_not_config hr (of_decide_eq_false ha) v
  | lock => exact exec_lock_of_not_config (of_decide_eq_false ha)
  | tick => exact exec_tick_of_not_run (of_decide_eq_false ha)

theorem fetchFrame_lastErr_ne_cmdState (P : Params) (s : State) : (fetchFrame P s).lastErr ≠ .cmdState := by
  rcases fetchFrame_cases P s with ⟨_, h⟩ | ⟨_, _, _, h⟩ | ⟨_, _, _, h⟩ <;> simp [h]

theorem lockCfg_lastErr_ne_cmdState (P : Params) (s : State) : (lockCfg P s).lastErr ≠ .cmdState := by
  rcases lockCfg_cases P s with ⟨_, h⟩ | ⟨_, h⟩ <;> simp [h]

theorem readPixel_lastErr_ne_cmdState (x y : Nat) (s : State) : (readPixel x y s).lastErr ≠ .cmdState := by
  rcases readPixel_cases x y s with ⟨_, h⟩ | ⟨_, _, h⟩ | ⟨_, _, _, h⟩ <;> simp [h]

/-- R235: a command its STATE allows does not end with CMD_STATE. A STAT_RD leaves LAST_ERR as it was (R193),
and so may leave a CMD_STATE of an earlier command. -/
theorem exec_lastErr_ne_cmdState_of_allowed (hi : i.wf = true) (ha : allowedIn s.mode i = true)
    (he : s.lastErr ≠ .cmdState) (h : exec i s = .next t) : t.lastErr ≠ .cmdState := by
  cases i with
  | nop => cases h; simp
  | cfgWr idx v =>
    obtain ⟨r, hr⟩ := Option.isSome_iff_exists.1 ((cfgRegOfIdx_isSome_iff idx).2 (of_decide_eq_true hi))
    rw [exec_cfgWr_of_config (of_decide_eq_true ha) hr] at h
    cases h; simp
  | cfgRd idx =>
    obtain ⟨r, hr⟩ := Option.isSome_iff_exists.1 ((cfgRegOfIdx_isSome_iff idx).2 (of_decide_eq_true hi))
    rw [exec_cfgRd_of_some hr] at h
    cases h; simp
  | lock =>
    rw [exec_lock_of_config (of_decide_eq_true ha)] at h
    cases h; exact lockCfg_lastErr_ne_cmdState _ s
  | tick =>
    rw [exec_tick_of_run (of_decide_eq_true ha)] at h
    cases h; exact fetchFrame_lastErr_ne_cmdState _ s
  | outRd x y => cases h; exact readPixel_lastErr_ne_cmdState _ _ s
  | statRd idx =>
    obtain ⟨r, hr⟩ := Option.isSome_iff_exists.1 ((statRegOfIdx_isSome_iff idx).2 (of_decide_eq_true hi))
    rw [exec_statRd_of_some hr] at h
    cases h; exact he

end StateCheck

/-- Settles O9: these are the commands that `allowedIn` does not allow in every STATE. -/
theorem disallowedCommandChangesOnlyLastErr : Obligations.DisallowedCommandChangesOnlyLastErr := by
  rintro i s hi (⟨rfl | ⟨idx, v, rfl⟩, hm⟩ | ⟨rfl, hm⟩)
  all_goals exact exec_of_not_allowed hi (decide_eq_false hm)

/-! ### The steps that run no command (R226, R240, R250) -/

/-- Settles O7: the word is turned away before STATE is looked at. -/
theorem illegalWordChangesOnlyLastErr : Obligations.IllegalWordChangesOnlyLastErr := by
  intro s t rest he hw
  rw [step_of_illegal_word he hw, popEvent_of_cons he]
  rfl

section Step

variable {s : State}

theorem step_of_idle (he : s.host.events = []) : step s = .next s := by
  simp only [step, nextEvent, he, List.head?_nil]

theorem step_of_reset {rest : List HostEvent} (he : s.host.events = .reset :: rest) :
    step s = .next (applyReset (popEvent s)) := by
  simp only [step, nextEvent, he, List.head?_cons]

end Step

/-- Settles O8. -/
theorem idleStepHoldsAllState : Obligations.IdleStepHoldsAllState := fun _ => step_of_idle

/-- Settles O11: whatever the host does next, the step that takes it ends in a next state. -/
theorem everyStepAnswersNextState : Obligations.EveryStepAnswersNextState := by
  intro s
  cases he : s.host.events with
  | nil => exact ⟨s, step_of_idle he⟩
  | cons ev rest =>
    cases ev with
    | reset => exact ⟨_, step_of_reset he⟩
    | command t =>
      by_cases hw : WellFormedWord t.cmd
      · obtain ⟨i, hd⟩ := decode_of_wellFormedWord hw
        rw [step_of_decode he hd]
        exact exec_answers_next i (popEvent s)
      · exact ⟨_, step_of_illegal_word he hw⟩

/-! ### A TICK after one that failed (R223, R225)

A TICK that fails leaves its mark in LAST_ERR and LAST_LEN only, and a TICK reads neither. -/

theorem takeResponse_setLastLen (s : State) (n : Word) (P : Params) (resp : PortResponse) :
    takeResponse P resp { s with lastLen := n } = takeResponse P resp s := by
  cases resp <;> rfl

section SkippedTick

variable {s : State}

/-- In RUN a TICK writes LAST_LEN, however it ends (R35). -/
theorem exec_tick_setLastLen (hm : s.mode = .run) (n : Word) :
    exec .tick { s with lastLen := n } = exec .tick s := by
  rw [exec_tick_of_run hm, exec_tick_of_run (by exact hm)]
  exact congrArg Host.Outcome.next
    (takeResponse_setLastLen { s with host := afterRead s.host (readRequest Config.params s.cfg) } n _ _)

theorem exec_tick_after_failed (hm : s.mode = .run) (e : ErrCode) (n : Word) (h : HostSide) :
    exec .tick { s with lastErr := e, lastLen := n, host := h } = exec .tick { s with host := h } :=
  (exec_setLastErr { s with lastLen := n, host := h } e (fun _ _ => Instr.noConfusion)).trans
    (exec_tick_setLastLen (s := { s with host := h }) hm n)

/-- A TICK in RUN that receives a frame of the expected length ends without error (R190). -/
theorem exec_tick_frame_ends {us : RawFrame} (hm : s.mode = .run)
    (hr : respond Config.params (readRequest Config.params s.cfg)
      (nextAnswer s.host (readRequest Config.params s.cfg)) = .data us)
    (hl : us.length = expectedUnits s.cfg) :
    ∃ t, exec .tick s = .next t ∧ t.lastErr = .none ∧ t.outValid = true ∧ t.mode = .run :=
  ⟨_, exec_tick_frame hm hr hl, rfl, rfl, hm⟩

end SkippedTick

/-- Settles O33: the failed TICK ends as `exec_tick_mismatch` says, and the next one does not see it. -/
theorem frameSizeMismatchSkipsOneTick : Obligations.FrameSizeMismatchSkipsOneTick := by
  intro s us hm req hr hl
  exact ⟨_, exec_tick_mismatch hm hr hl, rfl, exec_tick_after_failed hm _ _ _,
    fun vs hvs hlen => exec_tick_frame_ends hm hvs hlen⟩

/-- Settles O34: the failed TICK ends as `exec_tick_fail` says, and the next one does not see it. -/
theorem readFailureSkipsOneTick : Obligations.ReadFailureSkipsOneTick := by
  intro s hm req hr
  exact ⟨_, exec_tick_fail hm hr, rfl, exec_tick_after_failed hm _ _ _,
    fun vs hvs hlen => exec_tick_frame_ends hm hvs hlen⟩

/-! ### FATAL (R224) -/

section Fatal

variable {i : Instr} {s t : State}

/-- A LOCK in CONFIG records UNSUPPORTED_FORMAT only where it goes to FATAL (R186). -/
theorem lockCfg_mode_of_unsupportedFormat {P : Params} (h : (lockCfg P s).lastErr = .unsupportedFormat) :
    (lockCfg P s).mode = .fatal := by
  rcases lockCfg_cases P s with ⟨_, hend⟩ | ⟨_, hend⟩
  · simp [hend] at h
  · simp [hend]

/-- No command leaves FATAL: those that write STATE run in CONFIG only (R32). -/
theorem exec_mode_of_fatal (hm : s.mode = .fatal) (h : exec i s = .next t) : t.mode = .fatal := by
  rcases exec_cases h with ⟨e, v, rfl⟩ | ⟨_, _, _, _, hc, _⟩ | ⟨_, hc, _⟩ | ⟨_, hr, _⟩
  · exact hm
  · simp [hm] at hc
  · simp [hm] at hc
  · simp [hm] at hr

theorem step_leaves_fatal (hm : s.mode = .fatal) (h : step s = .next t) (hne : t.mode ≠ .fatal) :
    s.host.events.head? = some .reset ∧ t.mode = .config := by
  rcases step_status_cases h with hk | ⟨he, rfl⟩ | ⟨_, hc, _⟩ | ⟨_, hr, _⟩
  · exact absurd (hk.mode.trans hm) hne
  · exact ⟨he, applyReset_mode _⟩
  · simp [hm] at hc
  · simp [hm] at hr

/-- NOP, CFG_RD, OUT_RD and STAT_RD are allowed in every STATE (R72, R235). -/
theorem allowedIn_of_reads (m : Mode) (hi : i = .nop ∨ (∃ idx, i = .cfgRd idx) ∨ (∃ x y, i = .outRd x y) ∨
    ∃ idx, i = .statRd idx) : allowedIn m i = true := by
  rcases hi with rfl | ⟨_, rfl⟩ | ⟨_, _, rfl⟩ | ⟨_, rfl⟩ <;> rfl

end Fatal

/-- Settles O55, clause by clause; STATE FATAL fails the STATE check of TICK, LOCK and CFG_WR. -/
theorem fatalUntilReset : Obligations.FatalUntilReset := by
  refine ⟨fun s t hm h he => ?_, fun s hm => ⟨?_, fun t => step_leaves_fatal hm, ?_, ?_⟩⟩
  · obtain rfl := Host.Outcome.next.inj ((exec_lock_of_config hm).symm.trans h)
    exact lockCfg_mode_of_unsupportedFormat he
  · have turnedAway (i : Instr) (hi : i.wf = true) (ha : allowedIn .fatal i = false) :
        ∃ t, exec i s = .next t ∧ t.lastErr = .cmdState :=
      ⟨_, exec_of_not_allowed hi (by rw [hm, ha]), rfl⟩
    rintro i (rfl | rfl | ⟨idx, v, rfl, hidx⟩)
    · exact turnedAway _ rfl rfl
    · exact turnedAway _ rfl rfl
    · exact turnedAway _ (decide_eq_true hidx) rfl
  · exact fun rest he => ⟨_, step_of_reset he, rfl⟩
  · intro i hwf hi e
    obtain ⟨t, h⟩ := exec_answers_next i { s with lastErr := e }
    exact ⟨t, h, fun he => exec_lastErr_ne_cmdState_of_allowed hwf (allowedIn_of_reads _ hi) he h,
      exec_mode_of_fatal (by exact hm) h⟩

/-! ### The errors of OUT_RD (R228, R230) -/

section OutRdErrors

variable {s : State} {x y : Nat}

theorem readPixel_of_empty (hv : s.outValid = false) : readPixel x y s = failCmd .outEmpty s :=
  if_pos hv

theorem readPixel_of_outside (hv : s.outValid = true) (hxy : widthOf s.cfg ≤ x ∨ heightOf s.cfg ≤ y) :
    readPixel x y s = failCmd .outRange s := by
  rcases readPixel_cases x y s with ⟨hempty, _⟩ | ⟨_, _, hend⟩ | ⟨_, hx, hy, _⟩
  · simp [hv] at hempty
  · exact hend
  · omega

end OutRdErrors

/-- Settles O46: OUT_VALID is looked at before the coordinates. -/
theorem outRdErrorsChangeOnlyLastErr : Obligations.OutRdErrorsChangeOnlyLastErr := by
  intro s x y
  refine ⟨fun hv => ?_, fun hv hxy => ?_⟩
  · rw [exec, execOutRd, readPixel_of_empty hv]
    rfl
  · rw [exec, execOutRd, readPixel_of_outside hv hxy]
    rfl

end Sys2Proof.Machine

/-! Reset (R250, R252), the freeze of the configuration until it (R256), and runs over the events the host
has pending (R263, R264). -/

namespace Sys2Proof.Machine

/-! ### What reset leaves (R252) -/

/-- R36: after reset every field of STATUS is 0. -/
theorem statusWord_applyReset (s : State) : statusWord (applyReset s) = 0 := by
  simp only [statusWord, applyReset_mode, applyReset_outValid, applyReset_lastErr, applyReset_lockReason]
  decide

/-- Settles O56: the step is `applyReset`, which takes every field of the block from `Block.reset`. -/
theorem resetLeavesResetValues : Obligations.ResetLeavesResetValues := by
  intro s rest he
  exact ⟨_, step_of_reset he, rfl, applyReset_outValid _, applyReset_mode _, applyReset_lastErr _,
    applyReset_lockReason _, applyReset_lastLen _, statusWord_applyReset _, rfl⟩

/-- Settles O57: STATE is CONFIG, OUT_VALID is 0, and the host has decided no answer. -/
theorem resetMeetsInvariant : Obligations.ResetMeetsInvariant where
  reserved := reservedBitsZero_reset
  lifecycle := (lifecycleAgrees_config rfl).2 rfl
  output := by simp [OutputAgrees]
  capacity := by simp
  lastLen := fun _ => rfl
  memories := by simp [HostSide.idle]

/-! ### The events and RESULTs of one step (R263, R70) -/

@[simp] theorem lockCfg_events (P : Params) (s : State) : (lockCfg P s).host.events = s.host.events := by
  rcases lockCfg_cases P s with ⟨_, h⟩ | ⟨_, h⟩ <;> rw [h] <;> rfl

@[simp] theorem fetchFrame_events (P : Params) (s : State) : (fetchFrame P s).host.events = s.host.events := by
  rcases fetchFrame_cases P s with ⟨_, h⟩ | ⟨_, _, _, h⟩ | ⟨_, _, _, h⟩ <;> rw [h] <;> rfl

section Step

variable {s t : State}

/-- R263: a step takes the first pending event, and no step adds one. -/
theorem step_events (h : step s = .next t) : t.host.events = s.host.events.tail := by
  rcases step_cases h with ⟨he, rfl⟩ | ⟨_, _, rfl⟩ | ⟨_, _, _, _, _, rfl⟩ | ⟨_, _, _, _, _, hx⟩
  · rw [he, List.tail_nil]
  · rw [applyReset_host, popEvent_events]
  · rw [failCmd_events, popEvent_events]
  · rcases exec_cases hx with ⟨_, _, rfl⟩ | ⟨_, _, _, _, _, rfl⟩ | ⟨_, _, rfl⟩ | ⟨_, _, rfl⟩ <;> simp

/-- R70: a command answers one RESULT. -/
theorem exec_results {i : Instr} (h : exec i s = .next t) :
    ∃ v, t.host.results = s.host.results ++ [v] := by
  obtain ⟨u, _, v, hu, _, _, hres, _⟩ := exec_of_toBlock_eq (s := s) rfl i fun _ _ => rfl
  obtain rfl : t = u := Host.Outcome.next.inj (h.symm.trans hu)
  exact ⟨v, hres⟩

/-- R70, R226, R250: a transaction answers one RESULT, whether its word is well-formed or not; a reset
answers none. -/
theorem step_results {ev : HostEvent} {rest : List HostEvent} (he : s.host.events = ev :: rest)
    (h : step s = .next t) :
    ∃ rs, t.host.results = s.host.results ++ rs ∧ rs.length = ([ev].filter HostEvent.isCommand).length := by
  rcases step_cases h with ⟨hn, _⟩ | ⟨_, hr, rfl⟩ | ⟨_, _, _, hc, _, rfl⟩ | ⟨_, _, _, hc, _, hx⟩
  · exact absurd (he.symm.trans hn) (List.cons_ne_nil _ _)
  · obtain ⟨rfl, _⟩ := List.cons.inj (he.symm.trans hr)
    exact ⟨[], (List.append_nil _).symm, rfl⟩
  · obtain ⟨rfl, _⟩ := List.cons.inj (he.symm.trans hc)
    exact ⟨[0], failCmd_results _ _, rfl⟩
  · obtain ⟨rfl, _⟩ := List.cons.inj (he.symm.trans hc)
    obtain ⟨v, hv⟩ := exec_results hx
    exact ⟨[v], hv, rfl⟩

end Step

/-! ### The configuration over a run (R256) -/

/-- What every step keeps, every run keeps. -/
theorem run_preserves {p : State → Prop} (hp : ∀ s t, p s → step s = .next t → p t) :
    ∀ (n : Nat) {s t : State}, p s → Sys2Proof.core.run n s = .next t → p t
  | 0, s, t, hs, h => by
    obtain rfl := Host.Outcome.next.inj ((run_zero s).symm.trans h)
    exact hs
  | n + 1, s, t, hs, h => by
    obtain ⟨u, hu⟩ := everyStepAnswersNextState s
    exact run_preserves hp n (hp s u hs hu) ((run_succ_of_next hu n).symm.trans h)

/-- From `s` to `t` the configuration, STATE and LOCK_REASON have stayed, and no reset is pending in `t`. -/
structure FrozenSince (s t : State) : Prop where
  cfg : t.cfg = s.cfg
  mode : t.mode = s.mode
  lockReason : t.lockReason = s.lockReason
  noReset : HostEvent.reset ∉ t.host.events

/-- R256, R32: outside CONFIG neither CFG_WR nor LOCK runs, and a TICK writes no configuration. -/
theorem FrozenSince.of_step {s t u : State} (hs : s.mode ≠ .config) (ht : FrozenSince s t)
    (h : step t = .next u) : FrozenSince s u := by
  have hm : t.mode ≠ .config := ht.mode ▸ hs
  have hnr : HostEvent.reset ∉ u.host.events := fun hmem =>
    ht.noReset (List.mem_of_mem_tail (step_events h ▸ hmem))
  cases stepEffect_of_step h with
  | idle => exact ht
  | reset he => exact absurd (List.mem_of_head? he) ht.noReset
  | report e v => exact ⟨ht.cfg, ht.mode, ht.lockReason, hnr⟩
  | cfgWr r v hc => exact absurd hc hm
  | lock _ hc => exact absurd hc hm
  | tick _ _ =>
    exact ⟨(fetchFrame_cfg _ _).trans ht.cfg, (fetchFrame_mode _ _).trans ht.mode,
      (fetchFrame_lockReason _ _).trans ht.lockReason, hnr⟩

/-- Settles O49: `FrozenSince` holds at the start, and every step keeps it. -/
theorem configurationFrozenUntilReset : Obligations.ConfigurationFrozenUntilReset := by
  intro n s t hm hnr h
  have hfrozen : FrozenSince s t :=
    run_preserves (fun _ _ hu => hu.of_step hm) n ⟨rfl, rfl, rfl, hnr⟩ h
  exact ⟨hfrozen.cfg, hfrozen.mode, hfrozen.lockReason⟩

/-! ### A run over the pending events (R264) -/

/-- R264: as many steps as there are pending events take them all, with one RESULT per command. -/
theorem run_takes_events : ∀ (evs : List HostEvent) (s : State), s.host.events = evs →
    ∃ t, Sys2Proof.core.run evs.length s = .next t ∧ t.host.events = [] ∧
      ∃ rs, t.host.results = s.host.results ++ rs ∧ rs.length = (evs.filter HostEvent.isCommand).length
  | [], s, he => ⟨s, run_zero s, he, [], (List.append_nil _).symm, rfl⟩
  | ev :: rest, s, he => by
    obtain ⟨u, hu⟩ := everyStepAnswersNextState s
    have hue : u.host.events = rest := by rw [step_events hu, he, List.tail_cons]
    obtain ⟨rs, hrs, hlen⟩ := step_results he hu
    obtain ⟨t, ht, hte, rs', hrs', hlen'⟩ := run_takes_events rest u hue
    refine ⟨t, (run_succ_of_next hu _).trans ht, hte, rs ++ rs', ?_, ?_⟩
    · rw [hrs', hrs, List.append_assoc]
    · rw [List.length_append, hlen, hlen', ← List.length_append, ← List.filter_append,
        List.singleton_append]

/-- Settles O59: the run has as many steps as the host has events pending. -/
theorem runAnswersEveryCommand : Obligations.RunAnswersEveryCommand := fun s => run_takes_events _ s rfl

end Sys2Proof.Machine
